-- ==== Sys2Proof/Word.lean ====
section
/-! DEFINITION. The words of the rustrone engine and its two small closed sets of names: the four general
registers and the three values of the comparison flag. Rules cited `R<n>` and decisions `D<n>` are those of spec/. -/

namespace Sys2Proof

/-- A memory cell, a general register, the instruction pointer, an immediate: 8 bits, unsigned (R4, R5, R10, R12). -/
abbrev Byte := BitVec 8

/-- Half a byte: the opcode field, the selector, a register field (R5, R52, R53). -/
abbrev Nibble := BitVec 4

/-- The four general registers, `x[0]` to `x[3]` (R10). None is hard-wired and none has another name. -/
inductive Reg where
  | r0 | r1 | r2 | r3
  deriving DecidableEq, Repr

/-- The three values of the comparison flag (R14). -/
inductive Flag where
  | less | equal | greater
  deriving DecidableEq, Repr

end Sys2Proof
end

