-- ==== Sys2Proof/Config.lean ====
section
/-! DEFINITION. The two model arguments of R4, `MEM_SIZE` and `FLAG_RESET`: fixed before reset, changed by no step.
Every other parameter of R4 is a fixed number of the spec and stands in the types. -/

namespace Sys2Proof

/-- The model arguments of R4. `MEM_SIZE` is held as the address of the last cell, so that
`1 ≤ MEM_SIZE ≤ 256` holds of every value of this type. -/
structure Config where
  /-- `MEM_SIZE - 1` (R4, R30; D2). -/
  lastAddr : Byte
  /-- `FLAG_RESET`, the value of the flag after reset (R4, R14; D15). -/
  flagReset : Flag
  deriving DecidableEq, Repr

/-- `MEM_SIZE`, the number of bytes of memory (R4, R30). -/
def Config.memSize (c : Config) : Nat := c.lastAddr.toNat + 1

/-- The reference values of R4: `MEM_SIZE = 256`, `FLAG_RESET = equal`.
DESIGN CHOICE (log entries 1 and 2): the spec leaves both to the model and names these as the reference. -/
def Config.reference : Config := { lastAddr := 255#8, flagReset := .equal }

end Sys2Proof
end

