-- ==== Sys2Proof/Syntax.lean ====
section
/-! DEFINITION. The instructions: one constructor for each of the 27 rows of spec/opcode_table.json (R55, R56).
A jump has a row for its register form (`…R`, format JR) and one for its immediate form (`…I`, format JI).
Register operands are `Reg`, so that the index check of R58 is made once, by the decoder. -/

namespace Sys2Proof

/-- An instruction. `a` is the first register operand, `b` the second (R53); `imm` and `target` are the immediate
byte (R54). -/
inductive Instr where
  /-- `nop` (R80). -/
  | nop
  /-- `halt` (R81). -/
  | halt
  /-- `add ra, rb` (R91). -/
  | add (a b : Reg)
  /-- `sub ra, rb` (R92). -/
  | sub (a b : Reg)
  /-- `mul ra, rb` (R93). -/
  | mul (a b : Reg)
  /-- `div ra, rb` (R94). -/
  | div (a b : Reg)
  /-- `inc ra` (R95). -/
  | inc (a : Reg)
  /-- `dec ra` (R96). -/
  | dec (a : Reg)
  /-- `load ra, rb` (R100). -/
  | load (a b : Reg)
  /-- `store ra, rb` (R101). -/
  | store (a b : Reg)
  /-- `mov ra, rb` (R102). -/
  | mov (a b : Reg)
  /-- `put ra, v` (R103). -/
  | put (a : Reg) (imm : Byte)
  /-- `cmp ra, rb` (R110). -/
  | cmp (a b : Reg)
  /-- `jmp ra` (R112). -/
  | jmpR (a : Reg)
  /-- `jmp v` (R112). -/
  | jmpI (target : Byte)
  /-- `jl ra` (R113). -/
  | jlR (a : Reg)
  /-- `jl v` (R113). -/
  | jlI (target : Byte)
  /-- `je ra` (R114). -/
  | jeR (a : Reg)
  /-- `je v` (R114). -/
  | jeI (target : Byte)
  /-- `jg ra` (R115). -/
  | jgR (a : Reg)
  /-- `jg v` (R115). -/
  | jgI (target : Byte)
  /-- `jnl ra` (R116). -/
  | jnlR (a : Reg)
  /-- `jnl v` (R116). -/
  | jnlI (target : Byte)
  /-- `jne ra` (R117). -/
  | jneR (a : Reg)
  /-- `jne v` (R117). -/
  | jneI (target : Byte)
  /-- `jng ra` (R118). -/
  | jngR (a : Reg)
  /-- `jng v` (R118). -/
  | jngI (target : Byte)
  deriving DecidableEq, Repr

end Sys2Proof
end

