-- ==== Sys2Proof/Source.lean ====
section
/-! DEFINITION. Source instructions as the assembler sees them after splitting a line (R62 to R67): a mnemonic and
operands whose numbers have not been checked yet. The checks are in WellFormed.lean. -/

namespace Sys2Proof

/-- The twenty mnemonics (R63; D10, D11). -/
inductive Mnemonic where
  | nop | halt | add | sub | mul | div | inc | dec | load | store | mov | put | cmp
  | jmp | jl | je | jg | jnl | jne | jng
  deriving DecidableEq, Repr

/-- An operand of a source instruction: a register index (R64), an immediate value (R65) or a label reference
(R66), before any range check. -/
inductive Operand where
  | reg (index : Nat)
  | value (n : Nat)
  | label (name : List Char)
  deriving DecidableEq, Repr

/-- A source instruction: a mnemonic and its operands in order (R62). -/
structure SrcInstr where
  mnemonic : Mnemonic
  operands : List Operand
  deriving DecidableEq, Repr

/-- The assembler's errors, all fatal for the whole assembly (R73). -/
inductive AsmError where
  /-- Unknown first word that is no label declaration, or a malformed operand token. -/
  | syntaxError
  /-- A register index not in 0..3, an immediate or label value above 255. -/
  | rangeError
  /-- Operands that match no signature of the mnemonic (R67). -/
  | shapeError
  /-- A label that no line declares. -/
  | unresolvedLabel
  /-- A label declared twice (R66; D23). -/
  | duplicateLabel
  deriving DecidableEq, Repr

end Sys2Proof
end

