-- ==== Sys2Proof/WellFormed.lean ====
section
/-! DEFINITION. What makes a source instruction well formed: its operands match a signature of its mnemonic (R67),
every label has been replaced by its value (R70), register indices are 0 to 3 (R64) and values 0 to 255 (R65).
An `Instr` needs no further check: its field types carry these bounds, and `Instr.toSrc` writes it as the source
instruction it stands for. -/

namespace Sys2Proof

/-- The kinds of operand a signature asks for (R67): a value operand accepts an immediate or a label reference. -/
inductive OperandKind where
  | register | valueOrLabel
  deriving DecidableEq, Repr

/-- The kind of an operand (R67). -/
def Operand.kind : Operand → OperandKind
  | .reg _ => .register
  | .value _ => .valueOrLabel
  | .label _ => .valueOrLabel

/-- The operand signatures each mnemonic accepts (R67). -/
def Mnemonic.signatures : Mnemonic → List (List OperandKind)
  | .nop | .halt => [[]]
  | .add | .sub | .mul | .div | .load | .store | .mov | .cmp => [[.register, .register]]
  | .inc | .dec => [[.register]]
  | .put => [[.register, .valueOrLabel]]
  | .jmp | .jl | .je | .jg | .jnl | .jne | .jng => [[.register], [.valueOrLabel]]

/-- Check 1 (R67): the operands match a signature of the mnemonic. -/
def SrcInstr.shapeOk (t : SrcInstr) : Bool :=
  t.mnemonic.signatures.contains (t.operands.map Operand.kind)

/-- The register index of an operand, where it has one, is 0 to 3 (R64). -/
def Operand.registerOk : Operand → Bool
  | .reg n => n < 4
  | .value _ => true
  | .label _ => true

/-- The value of an operand, where it has one, is 0 to 255 (R65). -/
def Operand.valueOk : Operand → Bool
  | .reg _ => true
  | .value n => n < 256
  | .label _ => true

/-- The operand is no label reference: pass 2 has replaced it by its value (R70). -/
def Operand.resolved : Operand → Bool
  | .reg _ => true
  | .value _ => true
  | .label _ => false

/-- Check 2 (R64). -/
def SrcInstr.registersOk (t : SrcInstr) : Bool := t.operands.all Operand.registerOk

/-- Check 3 (R65). -/
def SrcInstr.valuesOk (t : SrcInstr) : Bool := t.operands.all Operand.valueOk

/-- Check 4 (R70). -/
def SrcInstr.resolved (t : SrcInstr) : Bool := t.operands.all Operand.resolved

/-- All four checks: the source instruction can be encoded. -/
def SrcInstr.wellFormed (t : SrcInstr) : Bool :=
  t.shapeOk && t.resolved && t.registersOk && t.valuesOk

/-- The index of a register (R10). -/
def Reg.index : Reg → Nat
  | .r0 => 0
  | .r1 => 1
  | .r2 => 2
  | .r3 => 3

/-- A register as a source operand (R64). -/
def Reg.operand (a : Reg) : Operand := .reg a.index

/-- The source instruction an instruction stands for (R67, R72). -/
def Instr.toSrc : Instr → SrcInstr
  | .nop => ⟨.nop, []⟩
  | .halt => ⟨.halt, []⟩
  | .add a b => ⟨.add, [a.operand, b.operand]⟩
  | .sub a b => ⟨.sub, [a.operand, b.operand]⟩
  | .mul a b => ⟨.mul, [a.operand, b.operand]⟩
  | .div a b => ⟨.div, [a.operand, b.operand]⟩
  | .inc a => ⟨.inc, [a.operand]⟩
  | .dec a => ⟨.dec, [a.operand]⟩
  | .load a b => ⟨.load, [a.operand, b.operand]⟩
  | .store a b => ⟨.store, [a.operand, b.operand]⟩
  | .mov a b => ⟨.mov, [a.operand, b.operand]⟩
  | .put a imm => ⟨.put, [a.operand, .value imm.toNat]⟩
  | .cmp a b => ⟨.cmp, [a.operand, b.operand]⟩
  | .jmpR a => ⟨.jmp, [a.operand]⟩
  | .jmpI t => ⟨.jmp, [.value t.toNat]⟩
  | .jlR a => ⟨.jl, [a.operand]⟩
  | .jlI t => ⟨.jl, [.value t.toNat]⟩
  | .jeR a => ⟨.je, [a.operand]⟩
  | .jeI t => ⟨.je, [.value t.toNat]⟩
  | .jgR a => ⟨.jg, [a.operand]⟩
  | .jgI t => ⟨.jg, [.value t.toNat]⟩
  | .jnlR a => ⟨.jnl, [a.operand]⟩
  | .jnlI t => ⟨.jnl, [.value t.toNat]⟩
  | .jneR a => ⟨.jne, [a.operand]⟩
  | .jneI t => ⟨.jne, [.value t.toNat]⟩
  | .jngR a => ⟨.jng, [a.operand]⟩
  | .jngI t => ⟨.jng, [.value t.toNat]⟩

/-- An instruction is well formed when the source instruction it stands for is. -/
abbrev Instr.WellFormed (i : Instr) : Prop := i.toSrc.wellFormed = true

end Sys2Proof
end

