-- ==== Sys2Proof/Decode.lean ====
section
/-! DEFINITION. The decoder and the encoder of R50 to R61 and R72: the bit fields of an instruction's bytes, the
opcode map, the rejections by name, and `decodeTableWord`, the decoder over a word numbered as
spec/opcode_table.json numbers it. -/

namespace Sys2Proof

/-- `b[7:4]`, the high nibble (R5). -/
def hiNibble (b : Byte) : Nibble := b.extractLsb' 4 4

/-- `b[3:0]`, the low nibble (R5). -/
def loNibble (b : Byte) : Nibble := b.extractLsb' 0 4

/-- `{hi, lo}`: the byte `16 * hi + lo` (R5). -/
def packNibbles (hi lo : Nibble) : Byte := BitVec.ofNat 8 (16 * hi.toNat + lo.toNat)

/-- Why bytes are no instruction (R57, R58). -/
inductive DecodeError where
  /-- An illegal first byte, or a register byte whose unused low nibble is not 0 (R57). -/
  | illegalEncoding (b : Byte)
  /-- A register field of 4 to 15 (R58). -/
  | registerIndex (n : Nibble)
  deriving DecidableEq, Repr

/-- `Reg(n)`: the register index check of R58. -/
def regOfNibble (n : Nibble) : Except DecodeError Reg :=
  match n.toNat with
  | 0 => .ok .r0
  | 1 => .ok .r1
  | 2 => .ok .r2
  | 3 => .ok .r3
  | _ => .error (.registerIndex n)

/-- `DecodeRR()` of R60: both fields of the register byte are checked, the high one first (R61). -/
def decodeRR (mk : Reg → Reg → Instr) (b1 : Byte) : Except DecodeError Instr :=
  match regOfNibble (hiNibble b1) with
  | .error e => .error e
  | .ok a =>
    match regOfNibble (loNibble b1) with
    | .error e => .error e
    | .ok b => .ok (mk a b)

/-- `DecodeR()` of R60: the high field is checked, then the low nibble must be 0 (R61; D7, D8). -/
def decodeR (mk : Reg → Instr) (b1 : Byte) : Except DecodeError Instr :=
  match regOfNibble (hiNibble b1) with
  | .error e => .error e
  | .ok a => if loNibble b1 = 0 then .ok (mk a) else .error (.illegalEncoding b1)

/-- The decoder over the three bytes at an instruction's address, those beyond the instruction unused (R51, R57,
R60). The 27 legal first bytes are those of R55 and R56, and every other first byte is illegal whatever follows it. -/
def decode (b0 b1 b2 : Byte) : Except DecodeError Instr :=
  match b0.toNat with
  | 0x00 => .ok .nop
  | 0x10 => .ok .halt
  | 0x20 => decodeRR .add b1
  | 0x30 => decodeRR .sub b1
  | 0x40 => decodeRR .mul b1
  | 0x50 => decodeRR .div b1
  | 0x60 => decodeR .inc b1
  | 0x70 => decodeR .dec b1
  | 0x80 => decodeRR .load b1
  | 0x90 => decodeRR .store b1
  | 0xA0 => decodeRR .mov b1
  | 0xB0 => decodeR (fun a => .put a b2) b1
  | 0xC0 => decodeRR .cmp b1
  | 0xD0 => decodeR .jmpR b1
  | 0xD1 => .ok (.jmpI b1)
  | 0xE0 => decodeR .jlR b1
  | 0xE1 => .ok (.jlI b1)
  | 0xE2 => decodeR .jeR b1
  | 0xE3 => .ok (.jeI b1)
  | 0xE4 => decodeR .jgR b1
  | 0xE5 => .ok (.jgI b1)
  | 0xF0 => decodeR .jnlR b1
  | 0xF1 => .ok (.jnlI b1)
  | 0xF2 => decodeR .jneR b1
  | 0xF3 => .ok (.jneI b1)
  | 0xF4 => decodeR .jngR b1
  | 0xF5 => .ok (.jngI b1)
  | _ => .error (.illegalEncoding b0)

/-- The length of an instruction in bytes (R50). -/
def Instr.length : Instr → Nat
  | .nop => 1
  | .halt => 1
  | .add _ _ => 2
  | .sub _ _ => 2
  | .mul _ _ => 2
  | .div _ _ => 2
  | .inc _ => 2
  | .dec _ => 2
  | .load _ _ => 2
  | .store _ _ => 2
  | .mov _ _ => 2
  | .put _ _ => 3
  | .cmp _ _ => 2
  | .jmpR _ => 2
  | .jmpI _ => 2
  | .jlR _ => 2
  | .jlI _ => 2
  | .jeR _ => 2
  | .jeI _ => 2
  | .jgR _ => 2
  | .jgI _ => 2
  | .jnlR _ => 2
  | .jnlI _ => 2
  | .jneR _ => 2
  | .jneI _ => 2
  | .jngR _ => 2
  | .jngI _ => 2

/-- The length told by the opcode field of the first byte alone (R59). -/
def lengthOfFirst (b0 : Byte) : Nat :=
  if (hiNibble b0).toNat ≤ 1 then 1 else if (hiNibble b0).toNat = 11 then 3 else 2

/-- The 4-bit field that names a register (R53). -/
def Reg.field : Reg → Nibble
  | .r0 => 0#4
  | .r1 => 1#4
  | .r2 => 2#4
  | .r3 => 3#4

/-- The register byte of format RR (R51). -/
def pairByte (a b : Reg) : Byte := packNibbles a.field b.field

/-- The register byte of formats R, RI and JR: the index in the high nibble, the low nibble 0 (R51; D7). -/
def soloByte (a : Reg) : Byte := packNibbles a.field 0#4

/-- The bytes of an instruction, the first at the lowest address (R34, R51, R72). -/
def encode : Instr → List Byte
  | .nop => [0x00#8]
  | .halt => [0x10#8]
  | .add a b => [0x20#8, pairByte a b]
  | .sub a b => [0x30#8, pairByte a b]
  | .mul a b => [0x40#8, pairByte a b]
  | .div a b => [0x50#8, pairByte a b]
  | .inc a => [0x60#8, soloByte a]
  | .dec a => [0x70#8, soloByte a]
  | .load a b => [0x80#8, pairByte a b]
  | .store a b => [0x90#8, pairByte a b]
  | .mov a b => [0xA0#8, pairByte a b]
  | .put a imm => [0xB0#8, soloByte a, imm]
  | .cmp a b => [0xC0#8, pairByte a b]
  | .jmpR a => [0xD0#8, soloByte a]
  | .jmpI t => [0xD1#8, t]
  | .jlR a => [0xE0#8, soloByte a]
  | .jlI t => [0xE1#8, t]
  | .jeR a => [0xE2#8, soloByte a]
  | .jeI t => [0xE3#8, t]
  | .jgR a => [0xE4#8, soloByte a]
  | .jgI t => [0xE5#8, t]
  | .jnlR a => [0xF0#8, soloByte a]
  | .jnlI t => [0xF1#8, t]
  | .jneR a => [0xF2#8, soloByte a]
  | .jneI t => [0xF3#8, t]
  | .jngR a => [0xF4#8, soloByte a]
  | .jngI t => [0xF5#8, t]

/-- The decoder over a list of bytes: the instruction at its head, the bytes past the end read as 0. -/
def decodeBytes (bs : List Byte) : Except DecodeError Instr :=
  decode (bs.getD 0 0#8) (bs.getD 1 0#8) (bs.getD 2 0#8)

/-- The instructions a byte string is the concatenation of (R35, R75): `none` where some instruction is illegal or
cut short. `fuel` bounds the number of instructions. -/
def decodeAll : Nat → List Byte → Option (List Instr)
  | _, [] => some []
  | 0, _ :: _ => none
  | fuel + 1, b :: bs =>
    match decodeBytes (b :: bs) with
    | .error _ => none
    | .ok i =>
      if i.length ≤ (b :: bs).length then
        (decodeAll fuel ((b :: bs).drop i.length)).map (i :: ·)
      else none

/-- The bytes of a word of `n` bytes whose first byte (lowest address) is the MOST significant, which is how
spec/opcode_table.json numbers the bits of a row ("b0 (lowest address) most significant"). DEDUCED (log entry 5). -/
def tableWordBytes : Nat → Nat → List Byte
  | 0, _ => []
  | n + 1, w => BitVec.ofNat 8 (w / 256 ^ n) :: tableWordBytes n w

/-- The instruction the decoder reads from a word of `nbits` bits numbered as spec/opcode_table.json numbers them;
the bytes beyond `nbits` are 0. -/
def decodeTableWord (nbits w : Nat) : Option Instr :=
  match decodeBytes (tableWordBytes (nbits / 8) w) with
  | .ok i => some i
  | .error _ => none

end Sys2Proof
end

