-- ==== Sys2Proof/Machine/State.lean ====
section
/-! DEFINITION. The state of the engine, which is exactly R18's list, with the reasons a step can raise and the
state after reset. Memory is a list of cells in one canonical form; its operations are in Machine/Ops.lean. -/

namespace Sys2Proof.Machine

/-- The five fault causes of R130 with the info each records. The engine never leaves them as an outcome of their
own: a raise is a NEXT state whose `run` holds the cause (R131; log entry 3). -/
inductive Fault where
  /-- Raised by a step whose first fetch finds `ip ≥ MEM_SIZE` (R33); info: `ip`. Safe: the spec's own fault. -/
  | fetchBounds (ip : Byte)
  /-- Raised by a step whose first byte, or whose register byte's unused nibble, is illegal (R57); info: that byte.
  Safe: the spec's own fault. -/
  | illegalEncoding (b : Byte)
  /-- Raised by a step whose register byte names a register 4 to 15 (R58); info: the field. Safe: the spec's own
  fault. -/
  | registerIndex (n : Nibble)
  /-- Raised by `div` when the divisor is 0 (R94); no info. Safe: the spec's own fault. -/
  | divideByZero
  /-- Raised by `load` and `store` when the address is at or beyond `MEM_SIZE` (R32); info: the address. Safe: the
  spec's own fault. -/
  | dataBounds (addr : Byte)
  deriving DecidableEq, Repr

/-- Why the model gives no meaning. Every instruction has its meaning, so nothing raises one. -/
inductive Refusal where
  /-- Would be answered by an arm of `exec` without a meaning; there is none. Safe: it stops. -/
  | notModelled (mnemonic : String)
  deriving DecidableEq, Repr

/-- The run state of R15. `faulted cause origin` is the spec's `Faulted(cause, at)` with the info kept (R131);
`origin` is the value `ip` had at the start of the faulting step. -/
inductive Run where
  | running
  | halted
  | faulted (cause : Fault) (origin : Byte)
  deriving DecidableEq, Repr

/-- The register file: four 8-bit registers (R10). -/
structure Regs where
  x0 : Byte
  x1 : Byte
  x2 : Byte
  x3 : Byte
  deriving DecidableEq, Repr

/-- The memory: pairs of address and byte. The canonical form is `Memory.wf` of Machine/Ops.lean. -/
structure Memory where
  cells : List Host.Cell
  deriving DecidableEq, Repr

/-- The state of the engine (R18), and beside it the model arguments of R4, which no step changes (log entry 1). -/
structure State where
  /-- `MEM_SIZE` and `FLAG_RESET` (R4): the model's own field. -/
  cfg : Config
  /-- `x[0..3]` (R10). -/
  x : Regs
  /-- The instruction pointer (R12). -/
  ip : Byte
  /-- The comparison flag (R14). -/
  flag : Flag
  /-- The run state (R15). -/
  run : Run
  /-- `Mem` (R16). -/
  mem : Memory
  deriving DecidableEq, Repr

/-- Memory with every cell at its reset value (R19). -/
def Memory.empty : Memory := { cells := [] }

/-- The state reset leaves under the model arguments `c` (R19, R150). -/
def State.resetWith (c : Config) : State :=
  { cfg := c
    x := { x0 := 0#8, x1 := 0#8, x2 := 0#8, x3 := 0#8 }
    ip := 0#8
    flag := c.flagReset
    run := .running
    mem := Memory.empty }

/-- The state after reset under the reference arguments of R4 (R19; log entries 1 and 2). -/
def State.reset : State := State.resetWith Config.reference

end Sys2Proof.Machine
end

