-- ==== Sys2Proof/Machine/Ops.lean ====
section
/-! DEFINITION. The shared operations: one cell of memory, the data accesses with their bounds check (R31), the
instruction fetch and the advance of `ip` (R33), raising a fault (R131) and completing an instruction (R13). There
is no trap entry beyond the raise and no return from one (R135). -/

namespace Sys2Proof.Machine

/-- What an address that no cell lists reads as: 0, the reset value of every cell (R19, R21). -/
def Memory.unlisted : Byte := 0#8

/-- The byte a list of cells gives at an address. -/
def Memory.lookup : List Host.Cell → Nat → Byte
  | [], _ => Memory.unlisted
  | (k, v) :: t, a => if k = a then v else Memory.lookup t a

/-- `Mem[a]` (R6, R16). -/
def Memory.read (m : Memory) (a : Nat) : Byte := Memory.lookup m.cells a

/-- A list of cells with the byte at one address replaced, kept in the canonical form. -/
def Memory.replace : List Host.Cell → Nat → Byte → List Host.Cell
  | [], a, v => if v = Memory.unlisted then [] else [(a, v)]
  | (k, w) :: t, a, v =>
    if a < k then
      if v = Memory.unlisted then (k, w) :: t else (a, v) :: (k, w) :: t
    else if a = k then
      if v = Memory.unlisted then t else (a, v) :: t
    else (k, w) :: Memory.replace t a v

/-- `Mem[a] <- v` (R6, R16). -/
def Memory.write (m : Memory) (a : Nat) (v : Byte) : Memory := { cells := Memory.replace m.cells a v }

/-- The bytes of a list written to successive addresses from `a` on. -/
def Memory.writeList : Memory → Nat → List Byte → Memory
  | m, _, [] => m
  | m, a, v :: vs => Memory.writeList (m.write a v) (a + 1) vs

/-- The canonical form: addresses strictly rising, and no cell equal to what an unlisted address reads as. -/
abbrev Memory.wf (m : Memory) : Prop :=
  m.cells.Pairwise (fun p q => p.1 < q.1) ∧ ∀ c ∈ m.cells, c.2 ≠ Memory.unlisted

/-- Every listed address is below `n`. -/
abbrev Memory.below (m : Memory) (n : Nat) : Prop := ∀ c ∈ m.cells, c.1 < n

/-- `MEM_SIZE` of this engine (R4). -/
def State.memSize (s : State) : Nat := s.cfg.memSize

/-- `MemRead(addr, 1)` (R31): the byte, or `DataBounds(addr)`. -/
def State.memRead (s : State) (addr : Byte) : Except Fault Byte :=
  if s.memSize ≤ addr.toNat then .error (.dataBounds addr) else .ok (s.mem.read addr.toNat)

/-- `MemWrite(addr, 1, v)` (R31): the state with the byte written, or `DataBounds(addr)`. -/
def State.memWrite (s : State) (addr v : Byte) : Except Fault State :=
  if s.memSize ≤ addr.toNat then .error (.dataBounds addr)
  else .ok { s with mem := s.mem.write addr.toNat v }

/-- The address `k` bytes after `ip`, modulo `MEM_SIZE` (R12, R33). -/
def State.ipPlus (s : State) (k : Nat) : Byte := BitVec.ofNat 8 ((s.ip.toNat + k) % s.memSize)

/-- The state with `ip` advanced past `n` bytes (R12, R13). -/
def State.advance (s : State) (n : Nat) : State := { s with ip := s.ipPlus n }

/-- `raise E` (R131) at the start state of a step: every register, the flag, memory and `ip` are left as they are,
and `run` records the cause and the address of the faulting instruction. -/
def State.raise (s : State) (cause : Fault) : State := { s with run := .faulted cause s.ip }

/-- An instruction of `n` bytes whose writes made `s` completes: `ip` moves past it (R13). -/
def retire (n : Nat) (s : State) : Host.Outcome State Fault Refusal := .next (s.advance n)

/-- `Fetch()` (R33): the byte at `ip` and the state with `ip` advanced by one, or `FetchBounds(ip)`. -/
def State.fetch (s : State) : Except Fault (Byte × State) :=
  if s.memSize ≤ s.ip.toNat then .error (.fetchBounds s.ip)
  else .ok (s.mem.read s.ip.toNat, s.advance 1)

/-- A decoder's rejection as the fault the step raises (R57, R58). -/
def Fault.ofDecode : DecodeError → Fault
  | .illegalEncoding b => .illegalEncoding b
  | .registerIndex n => .registerIndex n

/-- The code number of a cause (R130; D20). -/
def Fault.code : Fault → Nat
  | .fetchBounds _ => 1
  | .illegalEncoding _ => 2
  | .registerIndex _ => 3
  | .divideByZero => 4
  | .dataBounds _ => 5

/-- The info a cause records, as a number; `div`'s records none (R130). -/
def Fault.info : Fault → Option Nat
  | .fetchBounds ip => some ip.toNat
  | .illegalEncoding b => some b.toNat
  | .registerIndex n => some n.toNat
  | .divideByZero => none
  | .dataBounds addr => some addr.toNat

end Sys2Proof.Machine
end

