-- ==== Sys2Proof/Machine/Operands.lean ====
section
/-! DEFINITION. Operands: the registers (R10, R53), the jump target in its two forms (R111) and the data address
(R44). An immediate is the byte itself (R54). -/

namespace Sys2Proof.Machine

/-- The register `a` of a register file (R10). -/
def Regs.get (x : Regs) : Reg → Byte
  | .r0 => x.x0
  | .r1 => x.x1
  | .r2 => x.x2
  | .r3 => x.x3

/-- The register file with register `a` replaced (R10). -/
def Regs.set (x : Regs) (a : Reg) (v : Byte) : Regs :=
  match a with
  | .r0 => { x with x0 := v }
  | .r1 => { x with x1 := v }
  | .r2 => { x with x2 := v }
  | .r3 => { x with x3 := v }

/-- `x[a]` (R6). -/
def State.readReg (s : State) (a : Reg) : Byte := s.x.get a

/-- `x[a] <- v` (R6). -/
def State.writeReg (s : State) (a : Reg) (v : Byte) : State := { s with x := s.x.set a v }

/-- The effective address of `load` and `store`: the whole value of one register (R44, R100, R101). -/
def State.effectiveAddress (s : State) (a : Reg) : Byte := s.readReg a

/-- The operand of a jump: its target in a register (format JR) or as an immediate byte (format JI) (R111). -/
inductive Target where
  | inRegister (a : Reg)
  | immediate (imm : Byte)
  deriving DecidableEq, Repr

/-- The target address of a jump, absolute and unreduced (R111). -/
def State.target (s : State) : Target → Byte
  | .inRegister a => s.readReg a
  | .immediate imm => imm

end Sys2Proof.Machine
end

