-- ==== Sys2Proof/Machine/Flags.lean ====
section
/-! DEFINITION. The comparison flag: the three-way comparison (R6, R110), the conditions of the jumps (R111) and the
numbers a snapshot shows (R14), and the truncation of arithmetic results (R6, R90), which touches no flag. -/

namespace Sys2Proof.Machine

/-- `ord(a, b)` on unsigned integers (R6). -/
def ord (a b : Byte) : Flag :=
  if a.toNat < b.toNat then .less else if a.toNat = b.toNat then .equal else .greater

/-- The number of a flag value in a snapshot (R14; D31). -/
def flagCode : Flag → Nat
  | .less => 0
  | .equal => 1
  | .greater => 2

/-- The condition of a jump: `jmp`, jump-if and jump-unless (R111). -/
inductive Condition where
  | always
  | ifFlag (want : Flag)
  | unlessFlag (want : Flag)
  deriving DecidableEq, Repr

/-- Whether a jump is taken under a flag (R111). -/
def Condition.taken : Condition → Flag → Bool
  | .always, _ => true
  | .ifFlag want, f => f == want
  | .unlessFlag want, f => f != want

/-- `trunc8(v)`: `v mod 256` for any integer `v` (R6, R90; D3). -/
def trunc8 (v : Int) : Byte := BitVec.ofInt 8 v

end Sys2Proof.Machine
end

