-- ==== Sys2Proof/Machine/Arith.lean ====
section
/-! DEFINITION. The arithmetic instructions `add`, `sub`, `mul`, `div`, `inc`, `dec` (spec/41_arithmetic.md): the
exact integer result, kept modulo 256 (R90). None reads or writes the flag. -/

namespace Sys2Proof.Machine

/-- `add ra, rb` (R91). -/
def execAdd (a b : Reg) (s : State) : Host.Outcome State Fault Refusal :=
  retire 2 (s.writeReg a (trunc8 ((s.readReg a).toNat + (s.readReg b).toNat)))

/-- `sub ra, rb` (R92). -/
def execSub (a b : Reg) (s : State) : Host.Outcome State Fault Refusal :=
  retire 2 (s.writeReg a (trunc8 ((s.readReg a).toNat - (s.readReg b).toNat)))

/-- `mul ra, rb` (R93). -/
def execMul (a b : Reg) (s : State) : Host.Outcome State Fault Refusal :=
  retire 2 (s.writeReg a (trunc8 ((s.readReg a).toNat * (s.readReg b).toNat)))

/-- `div ra, rb` (R94): both operands are read before `x[0]` and `x[1]` are written; a zero divisor raises. -/
def execDiv (a b : Reg) (s : State) : Host.Outcome State Fault Refusal :=
  let n := (s.readReg a).toNat
  let d := (s.readReg b).toNat
  if d = 0 then .next (s.raise .divideByZero)
  else retire 2 ((s.writeReg .r0 (BitVec.ofNat 8 (n / d))).writeReg .r1 (BitVec.ofNat 8 (n % d)))

/-- `inc ra` (R95). -/
def execInc (a : Reg) (s : State) : Host.Outcome State Fault Refusal :=
  retire 2 (s.writeReg a (trunc8 ((s.readReg a).toNat + 1)))

/-- `dec ra` (R96). -/
def execDec (a : Reg) (s : State) : Host.Outcome State Fault Refusal :=
  retire 2 (s.writeReg a (trunc8 ((s.readReg a).toNat - 1)))

end Sys2Proof.Machine
end

