-- ==== Sys2Proof/Machine/Jump.lean ====
section
/-! DEFINITION. `cmp` and the seven jumps, each in a register form and an immediate form
(spec/43_compare_jump.md). A jump writes only `ip` (R111). -/

namespace Sys2Proof.Machine

/-- `cmp ra, rb` (R110). -/
def execCmp (a b : Reg) (s : State) : Host.Outcome State Fault Refusal :=
  retire 2 { s with flag := ord (s.readReg a) (s.readReg b) }

/-- `exec_jump` (R111): a taken jump writes its target to `ip` unreduced (D18); one that is not taken moves past its
two bytes (spec/90_conflicts.md C6). -/
def jump (c : Condition) (t : Target) (s : State) : Host.Outcome State Fault Refusal :=
  if c.taken s.flag then .next { s with ip := s.target t } else retire 2 s

/-- `jmp ra` (R112). -/
def execJmpR (a : Reg) (s : State) : Host.Outcome State Fault Refusal := jump .always (.inRegister a) s

/-- `jmp v` (R112). -/
def execJmpI (target : Byte) (s : State) : Host.Outcome State Fault Refusal := jump .always (.immediate target) s

/-- `jl ra` (R113). -/
def execJlR (a : Reg) (s : State) : Host.Outcome State Fault Refusal := jump (.ifFlag .less) (.inRegister a) s

/-- `jl v` (R113). -/
def execJlI (target : Byte) (s : State) : Host.Outcome State Fault Refusal := jump (.ifFlag .less) (.immediate target) s

/-- `je ra` (R114). -/
def execJeR (a : Reg) (s : State) : Host.Outcome State Fault Refusal := jump (.ifFlag .equal) (.inRegister a) s

/-- `je v` (R114). -/
def execJeI (target : Byte) (s : State) : Host.Outcome State Fault Refusal := jump (.ifFlag .equal) (.immediate target) s

/-- `jg ra` (R115). -/
def execJgR (a : Reg) (s : State) : Host.Outcome State Fault Refusal := jump (.ifFlag .greater) (.inRegister a) s

/-- `jg v` (R115). -/
def execJgI (target : Byte) (s : State) : Host.Outcome State Fault Refusal := jump (.ifFlag .greater) (.immediate target) s

/-- `jnl ra` (R116). -/
def execJnlR (a : Reg) (s : State) : Host.Outcome State Fault Refusal := jump (.unlessFlag .less) (.inRegister a) s

/-- `jnl v` (R116). -/
def execJnlI (target : Byte) (s : State) : Host.Outcome State Fault Refusal := jump (.unlessFlag .less) (.immediate target) s

/-- `jne ra` (R117). -/
def execJneR (a : Reg) (s : State) : Host.Outcome State Fault Refusal := jump (.unlessFlag .equal) (.inRegister a) s

/-- `jne v` (R117). -/
def execJneI (target : Byte) (s : State) : Host.Outcome State Fault Refusal := jump (.unlessFlag .equal) (.immediate target) s

/-- `jng ra` (R118). -/
def execJngR (a : Reg) (s : State) : Host.Outcome State Fault Refusal := jump (.unlessFlag .greater) (.inRegister a) s

/-- `jng v` (R118). -/
def execJngI (target : Byte) (s : State) : Host.Outcome State Fault Refusal := jump (.unlessFlag .greater) (.immediate target) s

end Sys2Proof.Machine
end

