-- ==== Sys2Proof/Machine/Move.lean ====
section
/-! DEFINITION. The data movement instructions `load`, `store`, `mov`, `put` (spec/42_data_movement.md). -/

namespace Sys2Proof.Machine

/-- `load ra, rb` (R100): the byte at the address in `x[b]` goes to `x[a]`; an address beyond memory raises. -/
def execLoad (a b : Reg) (s : State) : Host.Outcome State Fault Refusal :=
  match s.memRead (s.effectiveAddress b) with
  | .ok v => retire 2 (s.writeReg a v)
  | .error f => .next (s.raise f)

/-- `store ra, rb` (R101): `x[b]` goes to the cell at the address in `x[a]`; an address beyond memory raises. -/
def execStore (a b : Reg) (s : State) : Host.Outcome State Fault Refusal :=
  match s.memWrite (s.effectiveAddress a) (s.readReg b) with
  | .ok t => retire 2 t
  | .error f => .next (s.raise f)

/-- `mov ra, rb` (R102). -/
def execMov (a b : Reg) (s : State) : Host.Outcome State Fault Refusal :=
  retire 2 (s.writeReg a (s.readReg b))

/-- `put ra, v` (R103). -/
def execPut (a : Reg) (imm : Byte) (s : State) : Host.Outcome State Fault Refusal :=
  retire 3 (s.writeReg a imm)

end Sys2Proof.Machine
end

