-- ==== Sys2Proof/Machine/System.lean ====
section
/-! DEFINITION. The no-operand instructions `nop` and `halt` (spec/40_nop_halt.md).
Every meaning of Machine/ runs on the state at the START of the step, so that `ip` is the instruction's own address,
and moves `ip` itself (R13; log entry 6). -/

namespace Sys2Proof.Machine

/-- `nop` (R80). -/
def execNop (s : State) : Host.Outcome State Fault Refusal := retire 1 s

/-- `halt` (R81). -/
def execHalt (s : State) : Host.Outcome State Fault Refusal := retire 1 { s with run := .halted }

end Sys2Proof.Machine
end

