-- ==== Sys2Proof/Machine/Dispatch.lean ====
section
/-! DEFINITION. The dispatch of R60: one arm per instruction, one meaning per arm. -/

namespace Sys2Proof.Machine

/-- What an instruction does to the state at the start of its step. -/
def exec (i : Instr) (s : State) : Host.Outcome State Fault Refusal :=
  match i with
  | .nop => Sys2Proof.Machine.execNop s
  | .halt => Sys2Proof.Machine.execHalt s
  | .add a b => Sys2Proof.Machine.execAdd a b s
  | .sub a b => Sys2Proof.Machine.execSub a b s
  | .mul a b => Sys2Proof.Machine.execMul a b s
  | .div a b => Sys2Proof.Machine.execDiv a b s
  | .inc a => Sys2Proof.Machine.execInc a s
  | .dec a => Sys2Proof.Machine.execDec a s
  | .load a b => Sys2Proof.Machine.execLoad a b s
  | .store a b => Sys2Proof.Machine.execStore a b s
  | .mov a b => Sys2Proof.Machine.execMov a b s
  | .put a imm => Sys2Proof.Machine.execPut a imm s
  | .cmp a b => Sys2Proof.Machine.execCmp a b s
  | .jmpR a => Sys2Proof.Machine.execJmpR a s
  | .jmpI target => Sys2Proof.Machine.execJmpI target s
  | .jlR a => Sys2Proof.Machine.execJlR a s
  | .jlI target => Sys2Proof.Machine.execJlI target s
  | .jeR a => Sys2Proof.Machine.execJeR a s
  | .jeI target => Sys2Proof.Machine.execJeI target s
  | .jgR a => Sys2Proof.Machine.execJgR a s
  | .jgI target => Sys2Proof.Machine.execJgI target s
  | .jnlR a => Sys2Proof.Machine.execJnlR a s
  | .jnlI target => Sys2Proof.Machine.execJnlI target s
  | .jneR a => Sys2Proof.Machine.execJneR a s
  | .jneI target => Sys2Proof.Machine.execJneI target s
  | .jngR a => Sys2Proof.Machine.execJngR a s
  | .jngI target => Sys2Proof.Machine.execJngI target s

end Sys2Proof.Machine
end

