-- ==== Sys2Proof/Machine/Fetch.lean ====
section
/-! DEFINITION. Fetching and decoding the next instruction, twice: `State.fetchDecode`, which the step uses, takes
the three bytes from `ip` on at once; `State.serialDecode` is R60's own text, one `Fetch()` at a time, with the
opcode map written over the bit fields of R52 and R56. That the two agree is stated as an obligation. -/

namespace Sys2Proof.Machine

/-- The byte `k` places after `ip`, modulo `MEM_SIZE` (R12, R33). -/
def State.codeByte (s : State) (k : Nat) : Byte := s.mem.read ((s.ip.toNat + k) % s.memSize)

/-- The next instruction, or the fault its fetch or decoding raises (R33, R60, R61). Only the first fetch can fault
(R33). DEDUCED (log entry 6): bytes beyond the instruction are read and not used, which nothing can observe (R36). -/
def State.fetchDecode (s : State) : Except Fault Instr :=
  if s.memSize ≤ s.ip.toNat then .error (.fetchBounds s.ip)
  else
    match decode (s.codeByte 0) (s.codeByte 1) (s.codeByte 2) with
    | .ok i => .ok i
    | .error e => .error (Fault.ofDecode e)

/-- `LegalFirst(op, sel)` (R60). -/
def legalFirst (op sel : Nibble) : Bool :=
  if op.toNat ≤ 12 then sel == 0 else if op.toNat = 13 then sel.toNat ≤ 1 else sel.toNat ≤ 5

/-- `Reg(n)` (R58), raising. -/
def serialReg (n : Nibble) : Except Fault Reg :=
  match regOfNibble n with
  | .ok a => .ok a
  | .error e => .error (Fault.ofDecode e)

/-- `DecodeRR()` (R60). -/
def State.serialRR (s : State) : Except Fault (Reg × Reg × State) := do
  let (b1, s) ← s.fetch
  let a ← serialReg (hiNibble b1)
  let b ← serialReg (loNibble b1)
  return (a, b, s)

/-- `DecodeR()` (R60). -/
def State.serialR (s : State) : Except Fault (Reg × State) := do
  let (b1, s) ← s.fetch
  let a ← serialReg (hiNibble b1)
  if loNibble b1 ≠ 0 then .error (.illegalEncoding b1) else return (a, s)

/-- The register form of the jump with these `op` and `cc` (R56). -/
def jumpInRegister (op : Nibble) (cc : Nat) (a : Reg) : Instr :=
  if op.toNat = 13 then .jmpR a
  else if op.toNat = 14 then (if cc = 0 then .jlR a else if cc = 1 then .jeR a else .jgR a)
  else (if cc = 0 then .jnlR a else if cc = 1 then .jneR a else .jngR a)

/-- The immediate form of the jump with these `op` and `cc` (R56). -/
def jumpImmediate (op : Nibble) (cc : Nat) (imm : Byte) : Instr :=
  if op.toNat = 13 then .jmpI imm
  else if op.toNat = 14 then (if cc = 0 then .jlI imm else if cc = 1 then .jeI imm else .jgI imm)
  else (if cc = 0 then .jnlI imm else if cc = 1 then .jneI imm else .jngI imm)

/-- The two-register instruction with this opcode number, where it has one (R55). -/
def pairKind (op : Nibble) : Option (Reg → Reg → Instr) :=
  match op.toNat with
  | 2 => some .add
  | 3 => some .sub
  | 4 => some .mul
  | 5 => some .div
  | 8 => some .load
  | 9 => some .store
  | 10 => some .mov
  | 12 => some .cmp
  | _ => none

/-- The fetches and checks of `Step()` (R60, R61), byte by byte: the instruction, and the state after its fetches,
in which only `ip` has moved. -/
def State.serialDecode (s : State) : Except Fault (Instr × State) := do
  let (b0, s) ← s.fetch
  let op := hiNibble b0
  let sel := loNibble b0
  if legalFirst op sel = false then .error (.illegalEncoding b0)
  else if op.toNat = 0 then return (.nop, s)
  else if op.toNat = 1 then return (.halt, s)
  else if op.toNat = 6 then
    let (a, s) ← s.serialR
    return (.inc a, s)
  else if op.toNat = 7 then
    let (a, s) ← s.serialR
    return (.dec a, s)
  else if op.toNat = 11 then
    let (a, s) ← s.serialR
    let (imm, s) ← s.fetch
    return (.put a imm, s)
  else
    match pairKind op with
    | some kind =>
      let (a, b, s) ← s.serialRR
      return (kind a b, s)
    | none =>
      let m := sel.toNat % 2
      let cc := sel.toNat / 2 % 4
      if m = 1 then
        let (imm, s) ← s.fetch
        return (jumpImmediate op cc imm, s)
      else
        let (a, s) ← s.serialR
        return (jumpInRegister op cc a, s)

end Sys2Proof.Machine
end

