-- ==== Sys2Proof/Machine/Step.lean ====
section
/-! DEFINITION. One step of the engine (R60): in a run state other than Running nothing changes (R15; D17);
otherwise the next instruction is fetched, decoded and executed, or its fault is raised. And `State.withFetchWord`,
which places an instruction where the next step fetches it. -/

namespace Sys2Proof.Machine

/-- `Step()` (R60). -/
def step (s : State) : Host.Outcome State Fault Refusal :=
  match s.run with
  | .running =>
    match s.fetchDecode with
    | .ok i => exec i s
    | .error f => .next (s.raise f)
  | .halted => .next s
  | .faulted _ _ => .next s

/-- The first `n` of the bytes `bs`, the missing ones 0, stored at `ip` and the addresses after it, modulo
`MEM_SIZE` (R12). -/
def State.withCode (s : State) : Nat → List Byte → State
  | 0, _ => s
  | n + 1, bs =>
    State.withCode { s with mem := s.mem.write ((s.ip.toNat + n) % s.memSize) (bs.getD n 0#8) } n bs

/-- `s` with the instruction of the table word `w` of `nbits` bits (log entry 5), followed by zeros up to the longest
instruction, stored where the next step fetches it. The step needs the engine to run and `ip` to lie in memory, so
`run` is set to Running and an `ip` at or beyond `MEM_SIZE` to 0 (log entry 11). -/
def State.withFetchWord (s : State) (nbits w : Nat) : State :=
  State.withCode
    { s with run := .running, ip := if s.ip.toNat < s.memSize then s.ip else 0#8 }
    3 (tableWordBytes (nbits / 8) w)

end Sys2Proof.Machine
end

