-- ==== Sys2Proof/Machine/Assembler.lean ====
section
/-! DEFINITION. The assembler (R62 to R76): software outside the block (R2), modelled as the spec gives it. Lines to
words, words to operands, two passes, bytes. Which error is reported where a program has several is the model's
choice (log entry 8). -/

namespace Sys2Proof.Machine

/-- The token of a mnemonic in its canonical lower-case form (R63). -/
def mnemonicText : Mnemonic → List Char
  | .nop => "nop".toList
  | .halt => "halt".toList
  | .add => "add".toList
  | .sub => "sub".toList
  | .mul => "mul".toList
  | .div => "div".toList
  | .inc => "inc".toList
  | .dec => "dec".toList
  | .load => "load".toList
  | .store => "store".toList
  | .mov => "mov".toList
  | .put => "put".toList
  | .cmp => "cmp".toList
  | .jmp => "jmp".toList
  | .jl => "jl".toList
  | .je => "je".toList
  | .jg => "jg".toList
  | .jnl => "jnl".toList
  | .jne => "jne".toList
  | .jng => "jng".toList

/-- The twenty mnemonics (R63). -/
def allMnemonics : List Mnemonic :=
  [.nop, .halt, .add, .sub, .mul, .div, .inc, .dec, .load, .store, .mov, .put, .cmp,
    .jmp, .jl, .je, .jg, .jnl, .jne, .jng]

/-- An ASCII letter in lower case; other characters as they are (R63; log entry 9). -/
def lowerChar (c : Char) : Char :=
  if 65 ≤ c.toNat ∧ c.toNat ≤ 90 then Char.ofNat (c.toNat + 32) else c

/-- The mnemonic a word spells, in any letter case (R63). -/
def findMnemonic (w : List Char) : Option Mnemonic :=
  allMnemonics.find? (fun m => mnemonicText m == w.map lowerChar)

/-- Spaces, tabs and commas separate words (R62; log entry 9). -/
def isSeparator (c : Char) : Bool := c == ' ' || c == '\t' || c == ','

/-- A line up to its first `;` (R62). -/
def cutComment (line : List Char) : List Char := line.takeWhile (fun c => c != ';')

/-- The words of a text, any run of separators being one (R62). `w` is the word being read, last character first. -/
def splitWords : List Char → List Char → List (List Char)
  | [], [] => []
  | w, [] => [w.reverse]
  | w, c :: cs =>
    if isSeparator c then
      match w with
      | [] => splitWords [] cs
      | _ :: _ => w.reverse :: splitWords [] cs
    else splitWords (c :: w) cs

/-- The words of a source line (R62). -/
def lineWords (line : List Char) : List (List Char) := splitWords [] (cutComment line)

/-- A decimal digit (R64, R65; D28). -/
def isDigit (c : Char) : Bool := 48 ≤ c.toNat && c.toNat ≤ 57

/-- A letter or the underscore (R66; D27). -/
def isLetter (c : Char) : Bool :=
  (65 ≤ c.toNat && c.toNat ≤ 90) || (97 ≤ c.toNat && c.toNat ≤ 122) || c == '_'

/-- The number a word of one or more decimal digits writes; leading zeros are allowed (R64, R65; D28). -/
def decimal (w : List Char) : Option Nat :=
  if w.isEmpty || !w.all isDigit then none
  else some (w.foldl (fun n c => 10 * n + (c.toNat - 48)) 0)

/-- The identifier of a well-formed label token: the sigil `.`, then letters, digits and `_`, not starting with a
digit (R66; D14, D27). -/
def labelName : List Char → Option (List Char)
  | '.' :: c :: cs => if isLetter c && cs.all (fun d => isLetter d || isDigit d) then some (c :: cs) else none
  | _ => none

/-- An operand token classified by its sigil (R64, R65, R66), with the range errors of a register index and an
immediate value. -/
def classify : List Char → Except AsmError Operand
  | 'r' :: ds =>
    match decimal ds with
    | none => .error .syntaxError
    | some n => if n < 4 then .ok (.reg n) else .error .rangeError
  | '.' :: cs =>
    match labelName ('.' :: cs) with
    | none => .error .syntaxError
    | some name => .ok (.label name)
  | w =>
    match decimal w with
    | none => .error .syntaxError
    | some n => if n < 256 then .ok (.value n) else .error .rangeError

/-- The operands of a line, in order; the first error ends it. -/
def classifyAll : List (List Char) → Except AsmError (List Operand)
  | [] => .ok []
  | w :: ws =>
    match classify w with
    | .error e => .error e
    | .ok o =>
      match classifyAll ws with
      | .error e => .error e
      | .ok os => .ok (o :: os)

/-- The size of an instruction from the kinds of its operands; any other shape is an error (R68). -/
def sizeOfKinds : List OperandKind → Option Nat
  | [] => some 1
  | [.register] => some 2
  | [.valueOrLabel] => some 2
  | [.register, .register] => some 2
  | [.register, .valueOrLabel] => some 3
  | _ => none

/-- What a line with words is (R62, R66). -/
inductive LineItem where
  | declares (name : List Char)
  | instruction (t : SrcInstr)
  deriving DecidableEq, Repr

/-- A line read: nothing, a label declaration or an instruction of a known shape (R62 to R67). -/
def readLine (line : List Char) : Except AsmError (Option LineItem) :=
  match lineWords line with
  | [] => .ok none
  | first :: rest =>
    match findMnemonic first with
    | some m =>
      match classifyAll rest with
      | .error e => .error e
      | .ok os =>
        if (SrcInstr.mk m os).shapeOk then .ok (some (.instruction ⟨m, os⟩)) else .error .shapeError
    | none =>
      match labelName first, rest with
      | some name, [] => .ok (some (.declares name))
      | some _, _ :: _ => .error .syntaxError
      | none, _ => .error .syntaxError

/-- The label table: identifiers and byte offsets (R69, R71). -/
abbrev LabelTable := List (List Char × Nat)

/-- The value of a label, where the table has it. -/
def findLabel : LabelTable → List Char → Option Nat
  | [], _ => none
  | (k, v) :: t, name => if k = name then some v else findLabel t name

/-- Pass 1 (R69): the instructions in order and the label table, from a cursor. A second declaration of a label is an
error (R66; D23). -/
def passOne : List (List Char) → Nat → LabelTable → Except AsmError (List SrcInstr × LabelTable)
  | [], _, table => .ok ([], table)
  | line :: lines, cursor, table =>
    match readLine line with
    | .error e => .error e
    | .ok none => passOne lines cursor table
    | .ok (some (.declares name)) =>
      match findLabel table name with
      | some _ => .error .duplicateLabel
      | none => passOne lines cursor ((name, cursor) :: table)
    | .ok (some (.instruction t)) =>
      match sizeOfKinds (t.operands.map Operand.kind) with
      | none => .error .shapeError
      | some n =>
        match passOne lines (cursor + n) table with
        | .error e => .error e
        | .ok (ts, table') => .ok (t :: ts, table')

/-- A label reference replaced by its value (R70); a value above 255 is a range error where it is used (R71). -/
def resolve (table : LabelTable) : Operand → Except AsmError Operand
  | .reg n => .ok (.reg n)
  | .value n => .ok (.value n)
  | .label name =>
    match findLabel table name with
    | none => .error .unresolvedLabel
    | some v => if v < 256 then .ok (.value v) else .error .rangeError

/-- The operands of an instruction resolved in order. -/
def resolveAll (table : LabelTable) : List Operand → Except AsmError (List Operand)
  | [] => .ok []
  | o :: os =>
    match resolve table o with
    | .error e => .error e
    | .ok o' =>
      match resolveAll table os with
      | .error e => .error e
      | .ok os' => .ok (o' :: os')

/-- The register with an index below 4 (R64). -/
def regOfIndex : Nat → Option Reg
  | 0 => some .r0
  | 1 => some .r1
  | 2 => some .r2
  | 3 => some .r3
  | _ => none

/-- The immediate byte of a value below 256 (R65). -/
def byteOfValue (n : Nat) : Option Byte := if n < 256 then some (BitVec.ofNat 8 n) else none

/-- The instruction of a two-register source form (R67, R72). -/
def pairForm (mk : Reg → Reg → Instr) : List Operand → Option Instr
  | [.reg a, .reg b] =>
    match regOfIndex a, regOfIndex b with
    | some a, some b => some (mk a b)
    | _, _ => none
  | _ => none

/-- The instruction of a one-register source form (R67, R72). -/
def soloForm (mk : Reg → Instr) : List Operand → Option Instr
  | [.reg a] => (regOfIndex a).map mk
  | _ => none

/-- The instruction of a jump in whichever of its two forms the operand has (R67, R72). -/
def jumpForm (mkR : Reg → Instr) (mkI : Byte → Instr) : List Operand → Option Instr
  | [.reg a] => (regOfIndex a).map mkR
  | [.value n] => (byteOfValue n).map mkI
  | _ => none

/-- The instruction a well-formed source instruction stands for (R67, R72); `none` for one that is not. -/
def instrOfSrc (t : SrcInstr) : Option Instr :=
  match t.mnemonic with
  | .nop => if t.operands.isEmpty then some .nop else none
  | .halt => if t.operands.isEmpty then some .halt else none
  | .add => pairForm .add t.operands
  | .sub => pairForm .sub t.operands
  | .mul => pairForm .mul t.operands
  | .div => pairForm .div t.operands
  | .inc => soloForm .inc t.operands
  | .dec => soloForm .dec t.operands
  | .load => pairForm .load t.operands
  | .store => pairForm .store t.operands
  | .mov => pairForm .mov t.operands
  | .put =>
    match t.operands with
    | [.reg a, .value n] =>
      match regOfIndex a, byteOfValue n with
      | some a, some v => some (.put a v)
      | _, _ => none
    | _ => none
  | .cmp => pairForm .cmp t.operands
  | .jmp => jumpForm .jmpR .jmpI t.operands
  | .jl => jumpForm .jlR .jlI t.operands
  | .je => jumpForm .jeR .jeI t.operands
  | .jg => jumpForm .jgR .jgI t.operands
  | .jnl => jumpForm .jnlR .jnlI t.operands
  | .jne => jumpForm .jneR .jneI t.operands
  | .jng => jumpForm .jngR .jngI t.operands

/-- Pass 2 (R70): the instructions with every label replaced by its value. After `readLine`'s shape check and
`resolve` the form always exists. -/
def passTwo (table : LabelTable) : List SrcInstr → Except AsmError (List Instr)
  | [] => .ok []
  | t :: ts =>
    match resolveAll table t.operands with
    | .error e => .error e
    | .ok os =>
      match instrOfSrc ⟨t.mnemonic, os⟩ with
      | none => .error .shapeError
      | some i =>
        match passTwo table ts with
        | .error e => .error e
        | .ok is => .ok (i :: is)

/-- The bytes of a sequence of instructions: the concatenation of their encodings (R70). -/
def encodeAll (is : List Instr) : List Byte := is.flatMap encode

/-- `assemble(source_lines)` over lines as lists of characters: the encoded program, or an error and no output
(R69, R70, R73). -/
def assembleChars (lines : List (List Char)) : Except AsmError (List Byte) :=
  match passOne lines 0 [] with
  | .error e => .error e
  | .ok (ts, table) =>
    match passTwo table ts with
    | .error e => .error e
    | .ok is => .ok (encodeAll is)

/-- `assemble(source_lines)` (R62, R69, R70, R73). -/
def assemble (lines : List String) : Except AsmError (List Byte) := assembleChars (lines.map String.toList)

/-- A source operand as text (R64, R65, R66). -/
def operandText : Operand → List Char
  | .reg n => 'r' :: Nat.toDigits 10 n
  | .value n => Nat.toDigits 10 n
  | .label name => '.' :: name

/-- The canonical line of a source instruction: the mnemonic, then each operand after a space. -/
def sourceText (t : SrcInstr) : List Char :=
  mnemonicText t.mnemonic ++ t.operands.flatMap (fun o => ' ' :: operandText o)

end Sys2Proof.Machine
end

