-- ==== Sys2Proof/Machine/Boundary.lean ====
section
/-! DEFINITION. The boundary between the engine and its host (R150 to R156): reset, load, step, read. What the host
has done so far decides whether it may load; that is a fact about the host, so it stands in `Session` beside the
engine and not in `State` (log entry 7). -/

namespace Sys2Proof.Machine

/-- How far the host has come since the last reset (R151). -/
inductive Phase where
  | fresh
  | loaded
  | stepped
  deriving DecidableEq, Repr

/-- An engine and its host's progress. -/
structure Session where
  phase : Phase
  engine : State
  deriving DecidableEq, Repr

/-- What the host can do to the engine between steps (R156). Reading has no effect and is a function of the state
(R155); stopping is to request nothing more. -/
inductive HostAction where
  /-- Creates or re-creates the engine (R150). That each reset may bring model arguments of its own, so that a later
  run of one session may have another MEM_SIZE or FLAG_RESET, is the model's choice (DESIGN CHOICE, log entry 15):
  R156 names no argument of a reset. -/
  | reset (c : Config)
  /-- Hands over a program (R151). -/
  | load (program : List Byte)
  /-- Requests one instruction (R152). -/
  | stepRequest
  deriving DecidableEq, Repr

/-- What the host gets (R152, R156; spec/90_conflicts.md C9). -/
inductive Reply where
  /-- A reset or a load was done. -/
  | done
  /-- A load was refused; nothing was loaded. -/
  | loadRefused
  /-- `Continue`. -/
  | continued
  /-- `Halted`. -/
  | halted
  /-- The fault is surfaced. -/
  | failed (cause : Fault) (origin : Byte)
  deriving DecidableEq, Repr

/-- The result of a step, from `run` after it (R152). -/
def State.report (s : State) : Reply :=
  match s.run with
  | .running => .continued
  | .halted => .halted
  | .faulted cause origin => .failed cause origin

/-- The engine after a step request. Every step has a next state (`step_next` of Laws/Step.lean), so the last two
arms are never taken. -/
def State.afterStep (s : State) : State :=
  match step s with
  | .next t => t
  | .fault _ => s
  | .refused _ => s

/-- A program placed at address 0 on (R151). -/
def State.loadProgram (s : State) (program : List Byte) : State :=
  { s with mem := s.mem.writeList 0 program }

/-- Whether a load is accepted: once, after reset and before the first step, and only if the program fits (R151,
R156; D24). -/
def Session.mayLoad (h : Session) (program : List Byte) : Bool :=
  h.phase == .fresh && program.length ≤ h.engine.memSize

/-- One action of the host (R156). A reset takes the model arguments it is given (log entry 15), and a load refused
for its length leaves the phase as it was (log entry 7). -/
def Session.act (h : Session) : HostAction → Session × Reply
  | .reset c => ({ phase := .fresh, engine := State.resetWith c }, .done)
  | .load program =>
    if h.mayLoad program then
      ({ phase := .loaded, engine := h.engine.loadProgram program }, .done)
    else (h, .loadRefused)
  | .stepRequest => ({ phase := .stepped, engine := h.engine.afterStep }, h.engine.afterStep.report)

/-- A sequence of the host's actions. -/
def Session.acts : Session → List HostAction → Session
  | h, [] => h
  | h, a :: as => Session.acts (h.act a).1 as

/-- The session a reset begins. -/
def Session.start (c : Config) : Session := { phase := .fresh, engine := State.resetWith c }

/-- The host's read of one memory byte (R155): `none` at an address that has no cell (log entry 10). -/
def State.readCell (s : State) (a : Nat) : Option Byte :=
  if a < s.memSize then some (s.mem.read a) else none

/-- What the host sees of the registers, the flag (as a number, R14), the instruction pointer and the run state
between steps (R20, R155). -/
structure Snapshot where
  x : Regs
  flagNumber : Nat
  ip : Byte
  run : Run
  deriving DecidableEq, Repr

/-- The snapshot of a state (R20). -/
def State.snapshot (s : State) : Snapshot :=
  { x := s.x, flagNumber := flagCode s.flag, ip := s.ip, run := s.run }

end Sys2Proof.Machine
end

