-- ==== Sys2Proof/Safety.lean ====
section
/-! DEFINITION. The end of a run (R154) and a safe run. -/

namespace Sys2Proof

open Machine

/-- The run is over and ended well: `run = Halted` (R154). -/
abbrev EndedWell (s : State) : Prop := s.run = .halted

/-- A fault has been raised (R132, R154). -/
def goneWrong (s : State) : Bool :=
  match s.run with
  | .running => false
  | .halted => false
  | .faulted _ _ => true

/-- The run is over: `run` is not Running (R154). -/
abbrev Over (s : State) : Prop := s.run ≠ .running

/-- A run of `n` steps from `s` is safe: it reaches a state in which no fault has been raised (R132, R154). -/
def SafeRun (n : Nat) (s : State) : Prop := ∃ t, core.run n s = .next t ∧ goneWrong t = false

/-- The info a recorded fault carries, and the address it names, are what R130 and R131 say they are: the fault
was raised at the present `ip`, a fetch or data address is at or beyond `MEM_SIZE`, a register field is 4 to 15, and
an illegal byte has a non-zero low nibble (each of the bytes R57 lists has). -/
def faultInfoOk (s : State) : Bool :=
  match s.run with
  | .running => true
  | .halted => true
  | .faulted cause origin =>
    origin == s.ip &&
      match cause with
      | .fetchBounds v => v == s.ip && decide (s.memSize ≤ v.toNat)
      | .illegalEncoding b => loNibble b != 0
      | .registerIndex n => decide (4 ≤ n.toNat)
      | .divideByZero => true
      | .dataBounds addr => decide (s.memSize ≤ addr.toNat)

/-- A recorded fault is the fault of the instruction at `ip`: the same step, taken again from a running engine,
raises it again, since the faulting step changed nothing but `run` (R131). -/
def faultRepeats (s : State) : Prop :=
  ∀ cause origin, s.run = .faulted cause origin → step { s with run := .running } = .next s

/-- The invariant of the engine: memory is in its canonical form and lies below `MEM_SIZE` (R16, R30), and a
recorded fault carries the info R130 gives it and is the fault of the instruction at `ip` (R131). -/
structure Inv (s : State) : Prop where
  canonical : s.mem.wf
  inMemory : s.mem.below s.memSize
  info : faultInfoOk s = true
  repeats : faultRepeats s

end Sys2Proof
end

