-- ==== Sys2Proof/Certificates/Slice0/Vocabulary.lean ====
section
/-! DEFINITION. The words the obligations are written in: the spec's tables set down once more, in numbers, apart
from the definitions of the model they are held against. -/

namespace Sys2Proof.Vocabulary

open Machine

/-- The 27 legal first bytes (R57). -/
def legalFirstBytes : List Nat :=
  [0x00, 0x10, 0x20, 0x30, 0x40, 0x50, 0x60, 0x70, 0x80, 0x90, 0xA0, 0xB0, 0xC0, 0xD0, 0xD1,
    0xE0, 0xE1, 0xE2, 0xE3, 0xE4, 0xE5, 0xF0, 0xF1, 0xF2, 0xF3, 0xF4, 0xF5]

/-- The first bytes of format RR (R51, R55). -/
def pairFirstBytes : List Nat := [0x20, 0x30, 0x40, 0x50, 0x80, 0x90, 0xA0, 0xC0]

/-- The first bytes of the formats with one register, R, RI and JR (R51, R55, R56). -/
def soloFirstBytes : List Nat := [0x60, 0x70, 0xB0, 0xD0, 0xE0, 0xE2, 0xE4, 0xF0, 0xF2, 0xF4]

/-- The first bytes of format JI (R51, R56). -/
def immediateFirstBytes : List Nat := [0xD1, 0xE1, 0xE3, 0xE5, 0xF1, 0xF3, 0xF5]

/-- The byte `k` places after `ip`, modulo `MEM_SIZE`, as a number (R12). -/
def byteAt (s : State) (k : Nat) : Nat := (s.mem.read ((s.ip.toNat + k) % s.memSize)).toNat

/-- `ip` moved past `n` bytes (R13). -/
def ipAfter (s : State) (n : Nat) : Byte := BitVec.ofNat 8 ((s.ip.toNat + n) % s.memSize)

/-- `Faulted(f, ip)` and nothing else changed (R131). -/
def faulted (s : State) (f : Fault) : State := { s with run := .faulted f s.ip }

/-- The step raises `f` (R131). -/
def Raises (s : State) (f : Fault) : Prop := step s = .next (faulted s f)

/-- The register with this number; 3 stands for every number above 2 (R10). -/
def regNumbered (s : State) (n : Nat) : Byte :=
  if n = 0 then s.x.x0 else if n = 1 then s.x.x1 else if n = 2 then s.x.x2 else s.x.x3

/-- The fault a step of a running engine reports, if any: the first met in the order of R133, under the conditions
and with the info of R130. -/
def expectedFault (s : State) : Option Fault :=
  let b0 := byteAt s 0
  let b1 := byteAt s 1
  let hi := b1 / 16
  let lo := b1 % 16
  if s.memSize ≤ s.ip.toNat then some (.fetchBounds s.ip)
  else if b0 ∉ legalFirstBytes then some (.illegalEncoding (BitVec.ofNat 8 b0))
  else if (b0 ∈ pairFirstBytes ∨ b0 ∈ soloFirstBytes) ∧ 4 ≤ hi then some (.registerIndex (BitVec.ofNat 4 hi))
  else if b0 ∈ pairFirstBytes ∧ 4 ≤ lo then some (.registerIndex (BitVec.ofNat 4 lo))
  else if b0 ∈ soloFirstBytes ∧ lo ≠ 0 then some (.illegalEncoding (BitVec.ofNat 8 b1))
  else if b0 = 0x50 ∧ regNumbered s lo = 0 then some .divideByZero
  else if b0 = 0x80 ∧ s.memSize ≤ (regNumbered s lo).toNat then some (.dataBounds (regNumbered s lo))
  else if b0 = 0x90 ∧ s.memSize ≤ (regNumbered s hi).toNat then some (.dataBounds (regNumbered s hi))
  else none

/-- Format N with first byte `fb` (R51): the encoding, the step that runs it, and the faults of its first byte. -/
def FormatN (fb : Nat) (i : Instr) : Prop :=
  encode i = [BitVec.ofNat 8 fb] ∧
  ∀ s : State, s.run = .running →
    (s.memSize ≤ s.ip.toNat → Raises s (.fetchBounds s.ip)) ∧
    (s.ip.toNat < s.memSize →
      (byteAt s 0 = fb → step s = exec i s) ∧
      (∀ sel, 1 ≤ sel → sel ≤ 15 → byteAt s 0 = fb + sel → Raises s (.illegalEncoding (BitVec.ofNat 8 (fb + sel)))))

/-- Format RR with first byte `fb` (R51): the encoding, the step that runs it, and its decode faults. -/
def FormatRR (fb : Nat) (mk : Reg → Reg → Instr) : Prop :=
  (∀ a b, encode (mk a b) = [BitVec.ofNat 8 fb, BitVec.ofNat 8 (16 * a.index + b.index)]) ∧
  ∀ s : State, s.run = .running →
    (s.memSize ≤ s.ip.toNat → Raises s (.fetchBounds s.ip)) ∧
    (s.ip.toNat < s.memSize →
      (∀ a b, byteAt s 0 = fb → byteAt s 1 = 16 * a.index + b.index → step s = exec (mk a b) s) ∧
      (∀ sel, 1 ≤ sel → sel ≤ 15 → byteAt s 0 = fb + sel → Raises s (.illegalEncoding (BitVec.ofNat 8 (fb + sel)))) ∧
      (byteAt s 0 = fb → 4 ≤ byteAt s 1 / 16 → Raises s (.registerIndex (BitVec.ofNat 4 (byteAt s 1 / 16)))) ∧
      (byteAt s 0 = fb → byteAt s 1 / 16 < 4 → 4 ≤ byteAt s 1 % 16 →
        Raises s (.registerIndex (BitVec.ofNat 4 (byteAt s 1 % 16)))))

/-- The register byte of formats R, RI and JR after first byte `fb` (R51, R57, R58): its faults. -/
def SoloByteFaults (fb : Nat) (s : State) : Prop :=
  (byteAt s 0 = fb → 4 ≤ byteAt s 1 / 16 → Raises s (.registerIndex (BitVec.ofNat 4 (byteAt s 1 / 16)))) ∧
  (byteAt s 0 = fb → byteAt s 1 / 16 < 4 → byteAt s 1 % 16 ≠ 0 →
    Raises s (.illegalEncoding (BitVec.ofNat 8 (byteAt s 1))))

/-- Format R with first byte `fb` (R51): the encoding, the step that runs it, and its decode faults. -/
def FormatR (fb : Nat) (mk : Reg → Instr) : Prop :=
  (∀ a, encode (mk a) = [BitVec.ofNat 8 fb, BitVec.ofNat 8 (16 * a.index)]) ∧
  ∀ s : State, s.run = .running →
    (s.memSize ≤ s.ip.toNat → Raises s (.fetchBounds s.ip)) ∧
    (s.ip.toNat < s.memSize →
      (∀ a, byteAt s 0 = fb → byteAt s 1 = 16 * a.index → step s = exec (mk a) s) ∧
      (∀ sel, 1 ≤ sel → sel ≤ 15 → byteAt s 0 = fb + sel → Raises s (.illegalEncoding (BitVec.ofNat 8 (fb + sel)))) ∧
      SoloByteFaults fb s)

/-- Format RI with first byte `fb` (R51): the encoding, the step that runs it, and its decode faults. -/
def FormatRI (fb : Nat) (mk : Reg → Byte → Instr) : Prop :=
  (∀ a v, encode (mk a v) = [BitVec.ofNat 8 fb, BitVec.ofNat 8 (16 * a.index), v]) ∧
  ∀ s : State, s.run = .running →
    (s.memSize ≤ s.ip.toNat → Raises s (.fetchBounds s.ip)) ∧
    (s.ip.toNat < s.memSize →
      (∀ a (v : Byte), byteAt s 0 = fb → byteAt s 1 = 16 * a.index → byteAt s 2 = v.toNat → step s = exec (mk a v) s) ∧
      (∀ sel, 1 ≤ sel → sel ≤ 15 → byteAt s 0 = fb + sel → Raises s (.illegalEncoding (BitVec.ofNat 8 (fb + sel)))) ∧
      SoloByteFaults fb s)

/-- A jump with first byte `fb` in its register form and `fb + 1` in its immediate form (R51, R56): the encodings,
the steps that run them, and the faults, which do not depend on the flag (R111). -/
def FormatJump (fb : Nat) (mkR : Reg → Instr) (mkI : Byte → Instr) : Prop :=
  (∀ a, encode (mkR a) = [BitVec.ofNat 8 fb, BitVec.ofNat 8 (16 * a.index)]) ∧
  (∀ v, encode (mkI v) = [BitVec.ofNat 8 (fb + 1), v]) ∧
  ∀ s : State, s.run = .running →
    (s.memSize ≤ s.ip.toNat → Raises s (.fetchBounds s.ip)) ∧
    (s.ip.toNat < s.memSize →
      (∀ a, byteAt s 0 = fb → byteAt s 1 = 16 * a.index → step s = exec (mkR a) s) ∧
      (∀ v : Byte, byteAt s 0 = fb + 1 → byteAt s 1 = v.toNat → step s = exec (mkI v) s) ∧
      SoloByteFaults fb s)

/-- What a jump does, given when it is taken (R111): it writes `ip` and nothing else, the target unreduced. -/
def JumpEffect (taken : Flag → Prop) (mkR : Reg → Instr) (mkI : Byte → Instr) : Prop :=
  ∀ s : State,
    (taken s.flag →
      (∀ a, exec (mkR a) s = .next { s with ip := s.readReg a }) ∧
      (∀ v, exec (mkI v) s = .next { s with ip := v })) ∧
    (¬ taken s.flag →
      (∀ a, exec (mkR a) s = .next { s with ip := ipAfter s 2 }) ∧
      (∀ v, exec (mkI v) s = .next { s with ip := ipAfter s 2 }))

/-- The target of an instruction that is a taken jump in this state (R111 to R118). -/
def takenTarget (i : Instr) (s : State) : Option Byte :=
  match i with
  | .jmpR a => some (s.readReg a)
  | .jmpI v => some v
  | .jlR a => if s.flag = .less then some (s.readReg a) else none
  | .jlI v => if s.flag = .less then some v else none
  | .jeR a => if s.flag = .equal then some (s.readReg a) else none
  | .jeI v => if s.flag = .equal then some v else none
  | .jgR a => if s.flag = .greater then some (s.readReg a) else none
  | .jgI v => if s.flag = .greater then some v else none
  | .jnlR a => if s.flag ≠ .less then some (s.readReg a) else none
  | .jnlI v => if s.flag ≠ .less then some v else none
  | .jneR a => if s.flag ≠ .equal then some (s.readReg a) else none
  | .jneI v => if s.flag ≠ .equal then some v else none
  | .jngR a => if s.flag ≠ .greater then some (s.readReg a) else none
  | .jngI v => if s.flag ≠ .greater then some v else none
  | .nop => none
  | .halt => none
  | .add _ _ => none
  | .sub _ _ => none
  | .mul _ _ => none
  | .div _ _ => none
  | .inc _ => none
  | .dec _ => none
  | .load _ _ => none
  | .store _ _ => none
  | .mov _ _ => none
  | .put _ _ => none
  | .cmp _ _ => none

/-- The registers an instruction writes (R11). -/
def writes : Instr → List Reg
  | .add a _ => [a]
  | .sub a _ => [a]
  | .mul a _ => [a]
  | .div _ _ => [.r0, .r1]
  | .inc a => [a]
  | .dec a => [a]
  | .load a _ => [a]
  | .mov a _ => [a]
  | .put a _ => [a]
  | .nop => []
  | .halt => []
  | .store _ _ => []
  | .cmp _ _ => []
  | .jmpR _ => []
  | .jmpI _ => []
  | .jlR _ => []
  | .jlI _ => []
  | .jeR _ => []
  | .jeI _ => []
  | .jgR _ => []
  | .jgI _ => []
  | .jnlR _ => []
  | .jnlI _ => []
  | .jneR _ => []
  | .jneI _ => []
  | .jngR _ => []
  | .jngI _ => []

/-- The registers an instruction reads (R11). -/
def reads : Instr → List Reg
  | .add a b => [a, b]
  | .sub a b => [a, b]
  | .mul a b => [a, b]
  | .div a b => [a, b]
  | .inc a => [a]
  | .dec a => [a]
  | .load _ b => [b]
  | .store a b => [a, b]
  | .mov _ b => [b]
  | .put _ _ => []
  | .cmp a b => [a, b]
  | .jmpR a => [a]
  | .jlR a => [a]
  | .jeR a => [a]
  | .jgR a => [a]
  | .jnlR a => [a]
  | .jneR a => [a]
  | .jngR a => [a]
  | .nop => []
  | .halt => []
  | .jmpI _ => []
  | .jlI _ => []
  | .jeI _ => []
  | .jgI _ => []
  | .jnlI _ => []
  | .jneI _ => []
  | .jngI _ => []

/-- The six conditional jumps, in both forms (R14). -/
def isConditionalJump : Instr → Bool
  | .jlR _ => true
  | .jlI _ => true
  | .jeR _ => true
  | .jeI _ => true
  | .jgR _ => true
  | .jgI _ => true
  | .jnlR _ => true
  | .jnlI _ => true
  | .jneR _ => true
  | .jneI _ => true
  | .jngR _ => true
  | .jngI _ => true
  | .nop => false
  | .halt => false
  | .add _ _ => false
  | .sub _ _ => false
  | .mul _ _ => false
  | .div _ _ => false
  | .inc _ => false
  | .dec _ => false
  | .load _ _ => false
  | .store _ _ => false
  | .mov _ _ => false
  | .put _ _ => false
  | .cmp _ _ => false
  | .jmpR _ => false
  | .jmpI _ => false

/-- The address an instruction stores to, where it stores: the effective address of `store`'s first operand. -/
def storedAddress (i : Instr) (s : State) : Option Byte :=
  match i with
  | .store a _ => some (s.effectiveAddress a)
  | .nop => none
  | .halt => none
  | .add _ _ => none
  | .sub _ _ => none
  | .mul _ _ => none
  | .div _ _ => none
  | .inc _ => none
  | .dec _ => none
  | .load _ _ => none
  | .mov _ _ => none
  | .put _ _ => none
  | .cmp _ _ => none
  | .jmpR _ => none
  | .jmpI _ => none
  | .jlR _ => none
  | .jlI _ => none
  | .jeR _ => none
  | .jeI _ => none
  | .jgR _ => none
  | .jgI _ => none
  | .jnlR _ => none
  | .jnlI _ => none
  | .jneR _ => none
  | .jneI _ => none
  | .jngR _ => none
  | .jngI _ => none

/-- The canonical source line of an instruction. -/
def line (i : Instr) : List Char := sourceText i.toSrc

/-- The source forms that take a value and so may be written with a label in its place (R67; D32). -/
inductive LabelUser where
  | jmp
  | jl
  | je
  | jg
  | jnl
  | jne
  | jng
  | put (a : Reg)
  deriving DecidableEq, Repr

/-- The source line of a label user that refers to the label `name`. -/
def LabelUser.text (name : List Char) : LabelUser → List Char
  | .jmp => "jmp .".toList ++ name
  | .jl => "jl .".toList ++ name
  | .je => "je .".toList ++ name
  | .jg => "jg .".toList ++ name
  | .jnl => "jnl .".toList ++ name
  | .jne => "jne .".toList ++ name
  | .jng => "jng .".toList ++ name
  | .put .r0 => "put r0 .".toList ++ name
  | .put .r1 => "put r1 .".toList ++ name
  | .put .r2 => "put r2 .".toList ++ name
  | .put .r3 => "put r3 .".toList ++ name

/-- The instruction a label user stands for once the label has its value. -/
def LabelUser.instr (v : Byte) : LabelUser → Instr
  | .jmp => .jmpI v
  | .jl => .jlI v
  | .je => .jeI v
  | .jg => .jgI v
  | .jnl => .jnlI v
  | .jne => .jneI v
  | .jng => .jngI v
  | .put a => .put a v

/-- What stands on a line of a program that uses one label: an instruction without it, or one that refers to it. -/
inductive SourceItem where
  | plain (i : Instr)
  | refers (u : LabelUser)
  deriving DecidableEq, Repr

/-- The source line of an item. -/
def SourceItem.text (name : List Char) : SourceItem → List Char
  | .plain i => line i
  | .refers u => u.text name

/-- The instruction of an item once the label has its value. -/
def SourceItem.instr (v : Byte) : SourceItem → Instr
  | .plain i => i
  | .refers u => u.instr v

/-- How many bytes an item takes (R51, R68): its length does not depend on the label's value. -/
def SourceItem.size : SourceItem → Nat
  | .plain i => i.length
  | .refers (.put _) => 3
  | .refers _ => 2

/-- How many bytes a sequence of items takes. -/
def sizeOfItems (items : List SourceItem) : Nat := (items.map SourceItem.size).sum

/-- A source program of the items `before`, the declaration of the label `name`, and the items `after`. -/
def labelProgram (name : List Char) (before after : List SourceItem) : List (List Char) :=
  before.map (SourceItem.text name) ++ ['.' :: name] ++ after.map (SourceItem.text name)

/-- The invariant of a session: the engine has `Inv`, and an engine whose host has neither loaded nor stepped since the
last reset is Running (the phases are the model's bookkeeping, log entry 7). -/
structure SessionInv (h : Session) : Prop where
  engine : Inv h.engine
  fresh : h.phase = .fresh → h.engine.run = .running

/-- The first byte of an instruction, as a number. -/
def firstByte (i : Instr) : Nat := ((encode i).getD 0 0#8).toNat

end Sys2Proof.Vocabulary
end

