-- ==== Sys2Proof/Certificates/Slice0/Obligations.lean ====
section
/-! DEFINITION. The statements for the provers, each from the numbered rules of spec/ its docstring names. -/

open Sys2Proof Sys2Proof.Machine Sys2Proof.Vocabulary

/-! ### Reset, the step and the run state -/

/-- The value of every piece of state after reset (R19), for every pair of model arguments (R4); and a reset by the
host, from any session, gives that state (R150, R156). Three clauses rest on the model's choices too: that `memSize` is
the last address and 1 is how the model holds MEM_SIZE (log entry 1), that a reset may name arguments other than the
session's present ones is log entry 15, and the phase of `Session.start` is log entry 7. -/
def Obligations.ResetLeavesSpecValues : Prop :=
  ∀ c : Config,
    (∀ r, (State.resetWith c).readReg r = 0#8) ∧
    (State.resetWith c).ip = 0#8 ∧
    (State.resetWith c).flag = c.flagReset ∧
    (State.resetWith c).run = .running ∧
    (∀ a, (State.resetWith c).mem.read a = 0#8) ∧
    (State.resetWith c).memSize = c.lastAddr.toNat + 1 ∧
    ∀ h : Session, (h.act (.reset c)).1 = Session.start c ∧ (Session.start c).engine = State.resetWith c

/-- The invariant holds at reset, for every pair of model arguments, and so at `State.reset`, whose arguments are the
reference values of R4 (the model's choice, log entries 1 and 2). -/
def Obligations.InvHoldsAtReset : Prop :=
  (∀ c : Config, Inv (State.resetWith c)) ∧ Inv State.reset

/-- Every step keeps the invariant: memory canonical and below `MEM_SIZE`, a recorded fault genuine and repeatable
(R16, R30, R130, R131). -/
def Obligations.StepKeepsInv : Prop :=
  ∀ s t : State, Inv s → step s = .next t → Inv t

/-- A step of a running engine is the instruction the decoder reads from the bytes at `ip`, taken modulo `MEM_SIZE`
(R60). The meaning moves `ip` itself (log entry 6), so the step adds nothing around it. -/
def Obligations.StepRunsDecodedInstruction : Prop :=
  ∀ (s : State) (i : Instr), s.run = .running → s.ip.toNat < s.memSize →
    decode (BitVec.ofNat 8 (byteAt s 0)) (BitVec.ofNat 8 (byteAt s 1)) (BitVec.ofNat 8 (byteAt s 2)) = .ok i →
    step s = exec i s

/-- Every run of `n` steps from any state has a next state, under the same model arguments: no step ends in an
outcome of its own (R9, R15). -/
def Obligations.EveryRunHasNextState : Prop :=
  ∀ (n : Nat) (s : State), ∃ t : State, core.run n s = .next t ∧ t.cfg = s.cfg

/-- Halted and Faulted are terminal: any number of further step requests changes nothing and reports the same
(R15, R132, R152). -/
def Obligations.OverEngineNeverChanges : Prop :=
  ∀ (n : Nat) (s : State), s.run ≠ .running →
    core.run n s = .next s ∧ s.afterStep = s ∧ s.afterStep.report = s.report

/-- R15: the run state. Reset sets Running; only `halt` sets Halted and only a raise sets Faulted, with the `ip` of the
start of the step; Halted and Faulted are left by no step; and no instruction reads `run`. -/
def Obligations.RunStateTransitions : Prop :=
  (∀ c : Config, (State.resetWith c).run = .running) ∧
  (∀ s : State, s.run ≠ .running → step s = .next s ∧ s.afterStep.report = s.report) ∧
  (∀ s t : State, s.run = .running → step s = .next t →
    (t.run = .halted ↔ s.fetchDecode = .ok .halt) ∧
    (t.run = .running ∨ t.run = .halted ∨ ∃ f, t = faulted s f)) ∧
  (∀ (i : Instr) (s : State) (r : Run), ∃ t u : State,
    exec i s = .next t ∧ exec i { s with run := r } = .next u ∧
      u.x = t.x ∧ u.ip = t.ip ∧ u.flag = t.flag ∧ u.mem = t.mem)

/-- R131: a step that faults discards every write: registers, flag, memory and `ip` are as before it, only `run` has
changed, to the fault with the `ip` of the start of the step, and the fault is what the host is told. -/
def Obligations.FaultLeavesStateUnchanged : Prop :=
  ∀ (s t : State) (cause : Fault) (origin : Byte), s.run = .running → step s = .next t →
    t.run = .faulted cause origin →
    origin = s.ip ∧ t = { s with run := .faulted cause s.ip } ∧ t.report = .failed cause s.ip

/-- R130 and R133: a step of a running engine raises exactly the fault that is met first in the order of R133, under the
conditions and with the info R130 gives, and otherwise runs an instruction that raises none; and the code numbers and
infos of R130. -/
def Obligations.FaultCausesAndPriority : Prop :=
  (∀ s : State, s.run = .running →
    (∀ f, expectedFault s = some f → Raises s f) ∧
    (expectedFault s = none → ∃ i t, s.fetchDecode = .ok i ∧ step s = exec i s ∧ exec i s = .next t ∧
      (t.run = .running ∨ t.run = .halted))) ∧
  (∀ v : Byte, (Fault.fetchBounds v).code = 1 ∧ (Fault.fetchBounds v).info = some v.toNat ∧
    (Fault.illegalEncoding v).code = 2 ∧ (Fault.illegalEncoding v).info = some v.toNat ∧
    (Fault.dataBounds v).code = 5 ∧ (Fault.dataBounds v).info = some v.toNat) ∧
  (∀ n : Nibble, (Fault.registerIndex n).code = 3 ∧ (Fault.registerIndex n).info = some n.toNat) ∧
  Fault.divideByZero.code = 4 ∧ Fault.divideByZero.info = none

/-- With `MEM_SIZE = 256` neither `FetchBounds` nor `DataBounds` can ever be raised (R4, R32, R33). -/
def Obligations.FullMemoryNeverOutOfBounds : Prop :=
  ∀ (s t : State) (cause : Fault) (origin : Byte), s.memSize = 256 → s.run = .running → step s = .next t →
    t.run = .faulted cause origin →
    (∀ v, cause ≠ .fetchBounds v) ∧ (∀ v, cause ≠ .dataBounds v)

/-! ### Encoding, decoding and fetching -/

/-- R75: the round trip. Every well-formed source form has one instruction, which its bytes decode to whatever follows
them; and every byte string the decoder accepts as one instruction is the encoding of that instruction and of no other. -/
def Obligations.DecodeEncodeRoundTrip : Prop :=
  (∀ t : SrcInstr, t.wellFormed = true → ∃ i, instrOfSrc t = some i ∧ i.toSrc = t ∧
    ∀ rest, decodeBytes (encode i ++ rest) = .ok i) ∧
  (∀ (bs : List Byte) (i : Instr), decodeBytes bs = .ok i → i.length ≤ bs.length →
    bs.take i.length = encode i ∧ ∀ j, bs.take i.length = encode j → j = i)

/-- The well-formed source instructions are those that stand for an instruction, and every instruction is one
(R64, R65, R67). -/
def Obligations.WellFormedSourceHasInstruction : Prop :=
  (∀ t : SrcInstr, t.wellFormed = true ↔ ∃ i, instrOfSrc t = some i) ∧
  (∀ i : Instr, i.WellFormed ∧ instrOfSrc i.toSrc = some i)

/-- A program's instructions follow each other with no padding: the concatenation of the encodings of any instructions
decodes back to them (R35, R70). -/
def Obligations.InstructionStreamDecodesBack : Prop :=
  ∀ is : List Instr, decodeAll is.length (encodeAll is) = some is

/-- R57: the 27 legal first bytes; the other 229 raise `IllegalEncoding` of that byte; a register byte with a field of
4 to 15, or with a non-zero unused nibble, raises; the immediate byte has no illegal value. -/
def Obligations.LegalFirstBytes : Prop :=
  legalFirstBytes.Nodup ∧ legalFirstBytes.length = 27 ∧
  (∀ b0 : Byte, b0.toNat ∈ legalFirstBytes ↔ ∃ i, firstByte i = b0.toNat) ∧
  (∀ b0 : Byte, b0.toNat ∉ legalFirstBytes ↔
    (b0.toNat / 16 ≤ 12 ∧ b0.toNat % 16 ≠ 0) ∨ (b0.toNat / 16 = 13 ∧ 2 ≤ b0.toNat % 16) ∨
      (14 ≤ b0.toNat / 16 ∧ 6 ≤ b0.toNat % 16)) ∧
  (∀ b0 b1 b2 : Byte, b0.toNat ∉ legalFirstBytes → decode b0 b1 b2 = .error (.illegalEncoding b0)) ∧
  (∀ b0 b1 b2 : Byte, (b0.toNat ∈ pairFirstBytes ∨ b0.toNat ∈ soloFirstBytes) → 4 ≤ b1.toNat / 16 →
    decode b0 b1 b2 = .error (.registerIndex (BitVec.ofNat 4 (b1.toNat / 16)))) ∧
  (∀ b0 b1 b2 : Byte, b0.toNat ∈ pairFirstBytes → b1.toNat / 16 < 4 → 4 ≤ b1.toNat % 16 →
    decode b0 b1 b2 = .error (.registerIndex (BitVec.ofNat 4 (b1.toNat % 16)))) ∧
  (∀ b0 b1 b2 : Byte, b0.toNat ∈ soloFirstBytes → b1.toNat / 16 < 4 → b1.toNat % 16 ≠ 0 →
    decode b0 b1 b2 = .error (.illegalEncoding b1)) ∧
  (∀ b0 b1 b2 : Byte, b0.toNat ∈ immediateFirstBytes → ∃ i, decode b0 b1 b2 = .ok i) ∧
  (∀ (a : Reg) (v : Byte), decode 0xB0#8 (BitVec.ofNat 8 (16 * a.index)) v = .ok (.put a v))

/-- R59: the first byte alone tells the length. -/
def Obligations.LengthToldByFirstByte : Prop :=
  ∀ (b0 b1 b2 : Byte) (i : Instr), decode b0 b1 b2 = .ok i →
    ((b0.toNat / 16 = 0 ∨ b0.toNat / 16 = 1) → i.length = 1) ∧
    (b0.toNat / 16 = 11 → i.length = 3) ∧
    (b0.toNat / 16 ≠ 0 ∧ b0.toNat / 16 ≠ 1 ∧ b0.toNat / 16 ≠ 11 → i.length = 2) ∧
    (encode i).length = i.length

/-- R76: no two mnemonics share a pair of opcode field and condition code, and each legal first byte belongs to exactly
one mnemonic and one operand form. -/
def Obligations.FirstByteNamesOneForm : Prop :=
  (∀ i j : Instr, firstByte i / 16 = firstByte j / 16 → firstByte i % 16 / 2 = firstByte j % 16 / 2 →
    i.toSrc.mnemonic = j.toSrc.mnemonic) ∧
  (∀ i j : Instr, firstByte i = firstByte j →
    i.toSrc.mnemonic = j.toSrc.mnemonic ∧
      i.toSrc.operands.map Operand.kind = j.toSrc.operands.map Operand.kind) ∧
  (∀ fb ∈ legalFirstBytes, ∃ i, firstByte i = fb)

/-- The byte-serial fetch and decoding of R60, with every check in the order of R61 and one `Fetch()` of R33 at a time,
gives the same instruction or fault as the three-byte window the step uses, and leaves `ip` past the instruction. That
the step reads a window is the model's choice of form (DEDUCED, log entry 6). -/
def Obligations.SerialDecodeAgreesWithWindow : Prop :=
  ∀ s : State, s.serialDecode =
    match s.fetchDecode with
    | .ok i => .ok (i, { s with ip := ipAfter s i.length })
    | .error f => .error f

/-- A few words written out from the spec's encodings decode to the instructions they stand for
(spec/95_test_vectors.md 2.1). -/
def Obligations.SpecWordsDecode : Prop :=
  decodeBytes [0x10#8] = .ok .halt ∧
  decodeBytes [0x20#8, 0x12#8] = .ok (.add .r1 .r2) ∧
  decodeBytes [0x70#8, 0x10#8] = .ok (.dec .r1) ∧
  decodeBytes [0x90#8, 0x01#8] = .ok (.store .r0 .r1) ∧
  decodeBytes [0xB0#8, 0x20#8, 0xFF#8] = .ok (.put .r2 255#8) ∧
  decodeBytes [0xC0#8, 0x11#8] = .ok (.cmp .r1 .r1) ∧
  decodeBytes [0xD1#8, 0xC8#8] = .ok (.jmpI 200#8) ∧
  decodeBytes [0xF4#8, 0x10#8] = .ok (.jngR .r1)

/-! ### The no-operand and arithmetic instructions -/

/-- R80: `nop` changes nothing but `ip`, which moves by one; and a running engine whose memory is all zero runs `nop`
after `nop`, wrapping at `MEM_SIZE`, and never stops by itself. -/
def Obligations.NopOnlyMovesIp : Prop :=
  FormatN 0x00 .nop ∧
  (∀ s : State, exec .nop s = .next { s with ip := ipAfter s 1 }) ∧
  ∀ (n : Nat) (s : State), s.run = .running → s.ip.toNat < s.memSize → (∀ a, s.mem.read a = 0#8) →
    core.run n s = .next { s with ip := ipAfter s n }

/-- R81: `halt` sets `run` to Halted and leaves `ip` one past its own byte; the step reports Halted, and every later
step request does nothing and reports Halted again. -/
def Obligations.HaltStopsTheEngine : Prop :=
  FormatN 0x10 .halt ∧
  ∀ s : State, exec .halt s = .next { s with run := .halted, ip := ipAfter s 1 } ∧
    State.report { s with run := .halted, ip := ipAfter s 1 } = .halted ∧
    ∀ n, core.run n { s with run := .halted, ip := ipAfter s 1 } =
      .next { s with run := .halted, ip := ipAfter s 1 }

/-- R91: `add` leaves the sum modulo 256 in its first register and changes nothing else but `ip`. -/
def Obligations.AddWrapsModulo256 : Prop :=
  FormatRR 0x20 .add ∧
  ∀ (a b : Reg) (s : State), exec (.add a b) s =
    .next { s with
      x := s.x.set a (BitVec.ofNat 8 (((s.readReg a).toNat + (s.readReg b).toNat) % 256))
      ip := ipAfter s 2 }

/-- R92: `sub` leaves the difference, first minus second, modulo 256 in its first register and changes nothing else but
`ip`. -/
def Obligations.SubWrapsModulo256 : Prop :=
  FormatRR 0x30 .sub ∧
  ∀ (a b : Reg) (s : State), exec (.sub a b) s =
    .next { s with
      x := s.x.set a (BitVec.ofNat 8 (((s.readReg a).toNat + 256 - (s.readReg b).toNat) % 256))
      ip := ipAfter s 2 }

/-- R93: `mul` leaves the low byte of the product in its first register and changes nothing else but `ip`. -/
def Obligations.MulKeepsLowByte : Prop :=
  FormatRR 0x40 .mul ∧
  ∀ (a b : Reg) (s : State), exec (.mul a b) s =
    .next { s with
      x := s.x.set a (BitVec.ofNat 8 (((s.readReg a).toNat * (s.readReg b).toNat) % 256))
      ip := ipAfter s 2 }

/-- R94: `div` with a non-zero divisor leaves the quotient in register 0 and the remainder in register 1, both operands
read first, and changes nothing else but `ip`; a zero divisor raises `DivideByZero` and changes nothing else. -/
def Obligations.DivWritesQuotientAndRemainder : Prop :=
  FormatRR 0x50 .div ∧
  ∀ (a b : Reg) (s : State),
    ((s.readReg b).toNat ≠ 0 → exec (.div a b) s =
      .next { s with
        x := { s.x with
          x0 := BitVec.ofNat 8 ((s.readReg a).toNat / (s.readReg b).toNat)
          x1 := BitVec.ofNat 8 ((s.readReg a).toNat % (s.readReg b).toNat) }
        ip := ipAfter s 2 }) ∧
    ((s.readReg b).toNat = 0 → exec (.div a b) s = .next (faulted s .divideByZero))

/-- The division of R90 and R94 as an equation: dividend = divisor * quotient + remainder, the remainder below the
divisor, whichever registers held the operands. -/
def Obligations.DivisionIsEuclidean : Prop :=
  ∀ (a b : Reg) (s t : State), (s.readReg b).toNat ≠ 0 → exec (.div a b) s = .next t →
    (s.readReg a).toNat = (s.readReg b).toNat * (t.readReg .r0).toNat + (t.readReg .r1).toNat ∧
    (t.readReg .r1).toNat < (s.readReg b).toNat

/-- R95: `inc` adds one modulo 256 and changes nothing else but `ip`. -/
def Obligations.IncWrapsModulo256 : Prop :=
  FormatR 0x60 .inc ∧
  ∀ (a : Reg) (s : State), exec (.inc a) s =
    .next { s with x := s.x.set a (BitVec.ofNat 8 (((s.readReg a).toNat + 1) % 256)), ip := ipAfter s 2 }

/-- R96: `dec` subtracts one modulo 256 and changes nothing else but `ip`; the flag in particular is kept. -/
def Obligations.DecWrapsModulo256 : Prop :=
  FormatR 0x70 .dec ∧
  ∀ (a : Reg) (s : State), exec (.dec a) s =
    .next { s with x := s.x.set a (BitVec.ofNat 8 (((s.readReg a).toNat + 255) % 256)), ip := ipAfter s 2 }

/-! ### Data movement -/

/-- R100: `load` brings the byte at the address in its second register to its first and changes nothing else but `ip`;
an address at or beyond `MEM_SIZE` raises `DataBounds` and changes nothing else. -/
def Obligations.LoadReadsAddressedByte : Prop :=
  FormatRR 0x80 .load ∧
  ∀ (a b : Reg) (s : State),
    ((s.readReg b).toNat < s.memSize → exec (.load a b) s =
      .next { s with x := s.x.set a (s.mem.read (s.readReg b).toNat), ip := ipAfter s 2 }) ∧
    (s.memSize ≤ (s.readReg b).toNat → exec (.load a b) s = .next (faulted s (.dataBounds (s.readReg b))))

/-- R101: `store` writes its second register to the byte at the address in its first and changes nothing else but `ip`:
every other address reads as before. An address at or beyond `MEM_SIZE` raises `DataBounds` and changes nothing else. The
premise on memory is its canonical form, which every step keeps (`StepKeepsInv`). -/
def Obligations.StoreWritesAddressedByte : Prop :=
  FormatRR 0x90 .store ∧
  ∀ (a b : Reg) (s : State), s.mem.wf →
    ((s.effectiveAddress a).toNat < s.memSize → ∃ m : Memory,
      exec (.store a b) s = .next { s with mem := m, ip := ipAfter s 2 } ∧ m.wf ∧
      m.read (s.effectiveAddress a).toNat = s.readReg b ∧
      ∀ k, k ≠ (s.effectiveAddress a).toNat → m.read k = s.mem.read k) ∧
    (s.memSize ≤ (s.effectiveAddress a).toNat →
      exec (.store a b) s = .next (faulted s (.dataBounds (s.readReg a))))

/-- R102: `mov` copies its second register to its first and changes nothing else but `ip`. -/
def Obligations.MovCopiesSecondToFirst : Prop :=
  FormatRR 0xA0 .mov ∧
  ∀ (a b : Reg) (s : State), exec (.mov a b) s =
    .next { s with x := s.x.set a (s.readReg b), ip := ipAfter s 2 }

/-- R103: `put` writes its immediate byte to its register and changes nothing else but `ip`, which moves by three. -/
def Obligations.PutWritesImmediate : Prop :=
  FormatRI 0xB0 .put ∧
  ∀ (a : Reg) (v : Byte) (s : State), exec (.put a v) s =
    .next { s with x := s.x.set a v, ip := ipAfter s 3 }

/-! ### Compare and control transfer -/

/-- R110: `cmp` sets the flag to the three-way ordering of its registers as unsigned integers and changes nothing else
but `ip`. -/
def Obligations.CmpOrdersUnsigned : Prop :=
  FormatRR 0xC0 .cmp ∧
  ∀ (a b : Reg) (s : State),
    ((s.readReg a).toNat < (s.readReg b).toNat →
      exec (.cmp a b) s = .next { s with flag := .less, ip := ipAfter s 2 }) ∧
    ((s.readReg a).toNat = (s.readReg b).toNat →
      exec (.cmp a b) s = .next { s with flag := .equal, ip := ipAfter s 2 }) ∧
    ((s.readReg b).toNat < (s.readReg a).toNat →
      exec (.cmp a b) s = .next { s with flag := .greater, ip := ipAfter s 2 })

/-- R112: `jmp` writes its target to `ip` under every flag, and nothing else; first bytes 0xD2 to 0xDF are illegal. -/
def Obligations.JmpAlwaysJumps : Prop :=
  FormatJump 0xD0 .jmpR .jmpI ∧ JumpEffect (fun _ => True) .jmpR .jmpI ∧
  ∀ s : State, s.run = .running → s.ip.toNat < s.memSize → 0xD2 ≤ byteAt s 0 → byteAt s 0 ≤ 0xDF →
    Raises s (.illegalEncoding (BitVec.ofNat 8 (byteAt s 0)))

/-- R113: `jl` is taken when the flag is less. -/
def Obligations.JlJumpsIfLess : Prop :=
  FormatJump 0xE0 .jlR .jlI ∧ JumpEffect (fun f => f = .less) .jlR .jlI

/-- R114: `je` is taken when the flag is equal. -/
def Obligations.JeJumpsIfEqual : Prop :=
  FormatJump 0xE2 .jeR .jeI ∧ JumpEffect (fun f => f = .equal) .jeR .jeI

/-- R115: `jg` is taken when the flag is greater. -/
def Obligations.JgJumpsIfGreater : Prop :=
  FormatJump 0xE4 .jgR .jgI ∧ JumpEffect (fun f => f = .greater) .jgR .jgI

/-- R116: `jnl` is taken when the flag is equal or greater. -/
def Obligations.JnlJumpsUnlessLess : Prop :=
  FormatJump 0xF0 .jnlR .jnlI ∧ JumpEffect (fun f => f = .equal ∨ f = .greater) .jnlR .jnlI

/-- R117: `jne` is taken when the flag is less or greater. -/
def Obligations.JneJumpsUnlessEqual : Prop :=
  FormatJump 0xF2 .jneR .jneI ∧ JumpEffect (fun f => f = .less ∨ f = .greater) .jneR .jneI

/-- R118: `jng` is taken when the flag is less or equal. -/
def Obligations.JngJumpsUnlessGreater : Prop :=
  FormatJump 0xF4 .jngR .jngI ∧ JumpEffect (fun f => f = .less ∨ f = .equal) .jngR .jngI

/-! ### What an instruction leaves alone, and what it cannot see -/

/-- The registers of R11, written: an instruction that answers a next state leaves every register but those R11 says it
writes. (`div` writes registers 0 and 1, whatever its operands.) -/
def Obligations.OnlyNamedRegistersChange : Prop :=
  ∀ (i : Instr) (s t : State) (r : Reg), exec i s = .next t → r ∉ writes i → t.readReg r = s.readReg r

/-- The registers of R11, read: two states that differ only in registers an instruction does not read, according to R11,
are taken to states with the same flag, `ip`, run state and memory and the same values in the registers it writes, and
in both every other register is kept; where the instruction faults, it faults alike in both. -/
def Obligations.OnlyNamedRegistersAreRead : Prop :=
  ∀ (i : Instr) (s : State) (y : Regs), s.run = .running → (∀ r ∈ reads i, y.get r = s.x.get r) →
    ∃ t u : State, exec i s = .next t ∧ exec i { s with x := y } = .next u ∧
      u.flag = t.flag ∧ u.ip = t.ip ∧ u.run = t.run ∧ u.mem = t.mem ∧
      ((t.run = s.run ∨ t.run = .halted) → ∀ r ∈ writes i, u.readReg r = t.readReg r) ∧
      ∀ r, r ∉ writes i → u.readReg r = y.get r

/-- R14: the flag. `cmp` sets it and nothing else writes it; only the six conditional jumps read it; reset sets it to
`FLAG_RESET`; a snapshot shows less, equal, greater as 0, 1, 2. -/
def Obligations.OnlyCmpWritesFlag : Prop :=
  (∀ (i : Instr) (s t : State), exec i s = .next t → (∀ a b, i ≠ .cmp a b) → t.flag = s.flag) ∧
  (∀ (a b : Reg) (s t : State), exec (.cmp a b) s = .next t →
    t.flag = if (s.readReg a).toNat < (s.readReg b).toNat then .less
      else if (s.readReg a).toNat = (s.readReg b).toNat then .equal else .greater) ∧
  (∀ (i : Instr) (s : State) (f : Flag), isConditionalJump i = false → ∃ t u : State,
    exec i s = .next t ∧ exec i { s with flag := f } = .next u ∧
      u.x = t.x ∧ u.ip = t.ip ∧ u.run = t.run ∧ u.mem = t.mem) ∧
  (∀ c : Config, (State.resetWith c).flag = c.flagReset) ∧
  (flagCode .less = 0 ∧ flagCode .equal = 1 ∧ flagCode .greater = 2)

/-- Memory changes only where `store` stores: for every instruction, every address but the one the instruction stores to
reads as before, and an instruction that stores nothing leaves every address reading as before (R36, R44). -/
def Obligations.OnlyStoredByteChanges : Prop :=
  ∀ (i : Instr) (s t : State), exec i s = .next t →
    (∀ addr, storedAddress i s = some addr → ∀ k, k ≠ addr.toNat → t.mem.read k = s.mem.read k) ∧
    (storedAddress i s = none → ∀ k, t.mem.read k = s.mem.read k)

/-- Only `load` sees memory as data: for every other instruction, a different memory changes nothing of what it does to
the registers, the flag, `ip` and the run state (R44). -/
def Obligations.OnlyLoadSeesMemory : Prop :=
  ∀ (i : Instr) (s : State) (m : Memory), (∀ a b, i ≠ .load a b) → ∃ t u : State,
    exec i s = .next t ∧ exec i { s with mem := m } = .next u ∧
      u.x = t.x ∧ u.flag = t.flag ∧ u.ip = t.ip ∧ u.run = t.run

/-- R13: where each instruction leaves `ip`. A taken jump leaves its target, unreduced; every other instruction that does
not fault leaves `ip` past its own bytes, modulo `MEM_SIZE`; a step that faults leaves `ip` as it was. Only a taken jump
takes `ip` out of memory, and the step after it raises `FetchBounds`. -/
def Obligations.IpAfterEachInstruction : Prop :=
  (∀ (i : Instr) (s t : State), s.run = .running → exec i s = .next t → (t.run = .running ∨ t.run = .halted) →
    (∀ v, takenTarget i s = some v → t.ip = v) ∧
    (takenTarget i s = none → t.ip = ipAfter s i.length)) ∧
  (∀ (s t : State) (f : Fault) (origin : Byte), s.run = .running → step s = .next t → t.run = .faulted f origin →
    t.ip = s.ip) ∧
  (∀ s t : State, s.run = .running → s.ip.toNat < s.memSize → step s = .next t → s.memSize ≤ t.ip.toNat →
    (∃ i, s.fetchDecode = .ok i ∧ takenTarget i s = some t.ip) ∧ t.run = .running ∧ Raises t (.fetchBounds t.ip))

/-- A store is seen by every later fetch (R42): after a `store` inside memory, a fetch from the address stored to, at any
later `ip`, gives the byte stored. -/
def Obligations.StoreIsSeenByFetch : Prop :=
  ∀ (a b : Reg) (s t : State), s.mem.wf → (s.effectiveAddress a).toNat < s.memSize → exec (.store a b) s = .next t →
    ∀ (u : State) (k : Nat), u.mem = t.mem → (u.ip.toNat + k) % u.memSize = (s.effectiveAddress a).toNat →
      u.codeByte k = s.readReg b

/-- A load returns the byte the most recent store to its address wrote (R39). -/
def Obligations.LoadAfterStoreGivesStoredByte : Prop :=
  ∀ (a b c d : Reg) (s t u : State), s.mem.wf → (s.readReg a).toNat < s.memSize → exec (.store a b) s = .next t →
    u.mem = t.mem → u.cfg = t.cfg → u.readReg d = s.readReg a →
    exec (.load c d) u = .next { u with x := u.x.set c (s.readReg b), ip := ipAfter u 2 }

/-- Two memories in the canonical form that read alike at every address are equal data. -/
def Obligations.CanonicalMemoriesAreEqual : Prop :=
  ∀ m n : Memory, m.wf → n.wf → (∀ a, m.read a = n.read a) → m = n

/-! ### The host boundary and the assembler -/

/-- R151: a load after reset and before the first step writes the program at address 0 on, leaves 0 beyond it and all
other state untouched; a program longer than memory is refused and nothing is loaded; no load is accepted once one has
been done or a step has been taken. That a refused load also leaves the phase as it was, so that one for its length may
be followed by a load that fits, is the model's choice (DESIGN CHOICE, log entry 7), as the phases are. -/
def Obligations.LoadPlacesProgramAtZero : Prop :=
  (∀ (c : Config) (p : List Byte), p.length ≤ c.memSize → ∃ m : Memory,
    (Session.start c).act (.load p) =
      ({ phase := .loaded, engine := { State.resetWith c with mem := m } }, .done) ∧
    ∀ a, m.read a = if a < p.length then p.getD a 0#8 else 0#8) ∧
  (∀ (h : Session) (p : List Byte), h.engine.memSize < p.length → h.act (.load p) = (h, .loadRefused)) ∧
  (∀ (h : Session) (p : List Byte), h.phase ≠ .fresh → h.act (.load p) = (h, .loadRefused)) ∧
  (∀ h : Session, (h.act .stepRequest).1.phase = .stepped)

/-- R152: the result of a step request, from `run` after the step; and a request of an engine that is over changes
nothing and reports its state again. -/
def Obligations.StepReplyFollowsRunState : Prop :=
  (∀ h : Session, ∃ t, step h.engine = .next t ∧ (h.act .stepRequest).1.engine = t ∧
    (t.run = .running → (h.act .stepRequest).2 = .continued) ∧
    (t.run = .halted → (h.act .stepRequest).2 = .halted) ∧
    (∀ cause origin, t.run = .faulted cause origin → (h.act .stepRequest).2 = .failed cause origin)) ∧
  (∀ h : Session, h.engine.run ≠ .running →
    (h.act .stepRequest).1.engine = h.engine ∧ (h.act .stepRequest).2 = h.engine.report)

/-- Whatever a host does, of all it can do (R156), keeps the invariant of the session, and so does any sequence of its
actions from any reset. `SessionInv` is `Inv` of the engine together with the premise that an engine in the phase fresh
is Running, so that a load, which R151 allows only there, cannot alter the memory of a Faulted engine; the phases are
the model's bookkeeping (log entry 7), and a reset may bring any model arguments (log entry 15). -/
def Obligations.HostActionsKeepInv : Prop :=
  (∀ (h : Session) (a : HostAction), SessionInv h → SessionInv (h.act a).1) ∧
  (∀ (c : Config) (as : List HostAction), SessionInv ((Session.start c).acts as))

/-- R72: the bytes of each source form: assembling the source lines of any instructions gives the concatenation of their
encodings, and the encodings are those of R72's table. -/
def Obligations.AssembleEncodesSourceForms : Prop :=
  (∀ is : List Instr, assembleChars (is.map line) = .ok (encodeAll is)) ∧
  (∀ (fb : Nat) (mk : Reg → Reg → Instr), (fb, mk) ∈ [(0x20, Instr.add), (0x30, Instr.sub), (0x40, Instr.mul),
      (0x50, Instr.div), (0x80, Instr.load), (0x90, Instr.store), (0xA0, Instr.mov), (0xC0, Instr.cmp)] →
    ∀ a b, encode (mk a b) = [BitVec.ofNat 8 fb, BitVec.ofNat 8 (16 * a.index + b.index)]) ∧
  (∀ (fb : Nat) (mk : Reg → Instr), (fb, mk) ∈ [(0x60, Instr.inc), (0x70, Instr.dec), (0xD0, Instr.jmpR),
      (0xE0, Instr.jlR), (0xE2, Instr.jeR), (0xE4, Instr.jgR), (0xF0, Instr.jnlR), (0xF2, Instr.jneR),
      (0xF4, Instr.jngR)] →
    ∀ a, encode (mk a) = [BitVec.ofNat 8 fb, BitVec.ofNat 8 (16 * a.index)]) ∧
  (∀ (fb : Nat) (mk : Byte → Instr), (fb, mk) ∈ [(0xD1, Instr.jmpI), (0xE1, Instr.jlI), (0xE3, Instr.jeI),
      (0xE5, Instr.jgI), (0xF1, Instr.jnlI), (0xF3, Instr.jneI), (0xF5, Instr.jngI)] →
    ∀ v, encode (mk v) = [BitVec.ofNat 8 fb, v]) ∧
  encode .nop = [0x00#8] ∧ encode .halt = [0x10#8] ∧
  ∀ (a : Reg) (v : Byte), encode (.put a v) = [0xB0#8, BitVec.ofNat 8 (16 * a.index), v]

/-- R69 to R71: a label declared after N bytes of instructions resolves to N in every instruction that refers to it, a jump
of any of the seven mnemonics or a `put` into any register (R67; D32), before or after its declaration; where N is above
255 it is a range error in each program that refers to it, before or after, and none in a program that does not. -/
def Obligations.LabelsResolveToByteOffsets : Prop :=
  ∀ (before after : List SourceItem) (name : List Char), labelName ('.' :: name) = some name →
    (sizeOfItems before < 256 →
      assembleChars (labelProgram name before after) =
        .ok (encodeAll ((before ++ after).map (SourceItem.instr (BitVec.ofNat 8 (sizeOfItems before)))))) ∧
    (256 ≤ sizeOfItems before → ∀ u : LabelUser, .refers u ∈ before ++ after →
      assembleChars (labelProgram name before after) = .error .rangeError) ∧
    (∀ is js : List Instr, before = is.map .plain → after = js.map .plain →
      assembleChars (labelProgram name before after) = .ok (encodeAll (is ++ js)))
end

