-- ==== Sys2Proof/Laws/Decode.lean ====
section
/-! SUPPORT. The nibbles of a byte, and what the two register-byte decoders can answer. -/

namespace Sys2Proof

@[simp] theorem hiNibble_packNibbles (h l : Nibble) : hiNibble (packNibbles h l) = h := by
  simp only [hiNibble, packNibbles]
  apply BitVec.eq_of_toNat_eq
  have := h.isLt; have := l.isLt
  simp [Nat.shiftRight_eq_div_pow]
  omega

@[simp] theorem loNibble_packNibbles (h l : Nibble) : loNibble (packNibbles h l) = l := by
  simp only [loNibble, packNibbles]
  apply BitVec.eq_of_toNat_eq
  have := h.isLt; have := l.isLt
  simp
  omega

/-- `b = 16 * b[7:4] + b[3:0]` (R5). -/
theorem packNibbles_nibbles (b : Byte) : packNibbles (hiNibble b) (loNibble b) = b := by
  apply BitVec.eq_of_toNat_eq
  have := b.isLt
  simp [hiNibble, loNibble, packNibbles, Nat.shiftRight_eq_div_pow]
  omega

/-- Every register's field names it (R53, R58). -/
@[simp] theorem regOfNibble_field (a : Reg) : regOfNibble a.field = .ok a := by cases a <;> rfl

/-- Everything the register index check can answer (R58). -/
theorem regOfNibble_cases (n : Nibble) :
    (n.toNat < 4 ∧ ∃ a, regOfNibble n = .ok a ∧ a.field = n ∧ a.index = n.toNat) ∨
      (4 ≤ n.toNat ∧ regOfNibble n = .error (.registerIndex n)) := by
  have hn := n.isLt
  have h : n.toNat = 0 ∨ n.toNat = 1 ∨ n.toNat = 2 ∨ n.toNat = 3 ∨ 4 ≤ n.toNat := by omega
  rcases h with h | h | h | h | h
  · exact .inl ⟨by omega, .r0, by simp [regOfNibble, h], BitVec.eq_of_toNat_eq h.symm, h.symm⟩
  · exact .inl ⟨by omega, .r1, by simp [regOfNibble, h], BitVec.eq_of_toNat_eq h.symm, h.symm⟩
  · exact .inl ⟨by omega, .r2, by simp [regOfNibble, h], BitVec.eq_of_toNat_eq h.symm, h.symm⟩
  · exact .inl ⟨by omega, .r3, by simp [regOfNibble, h], BitVec.eq_of_toNat_eq h.symm, h.symm⟩
  · exact .inr ⟨h, by unfold regOfNibble; split <;> first | omega | rfl⟩

/-- A field of 4 to 15 is rejected (R58). -/
theorem regOfNibble_of_le {n : Nibble} (h : 4 ≤ n.toNat) : regOfNibble n = .error (.registerIndex n) := by
  rcases regOfNibble_cases n with ⟨hn, -⟩ | ⟨-, h'⟩
  · omega
  · exact h'

/-- A field of 0 to 3 names a register (R58). -/
theorem regOfNibble_of_lt {n : Nibble} (h : n.toNat < 4) :
    ∃ a, regOfNibble n = .ok a ∧ a.field = n ∧ a.index = n.toNat := by
  rcases regOfNibble_cases n with ⟨-, h'⟩ | ⟨hn, -⟩
  · exact h'
  · omega

/-- What `decodeRR` accepts (R60). -/
theorem decodeRR_ok {mk : Reg → Reg → Instr} {b1 : Byte} {i : Instr} (h : decodeRR mk b1 = .ok i) :
    ∃ a b, i = mk a b ∧ b1 = pairByte a b := by
  unfold decodeRR at h
  rcases regOfNibble_cases (hiNibble b1) with ⟨-, a, ha, fa, -⟩ | ⟨-, ha⟩ <;> simp only [ha] at h
  · rcases regOfNibble_cases (loNibble b1) with ⟨-, b, hb, fb, -⟩ | ⟨-, hb⟩ <;> simp only [hb] at h
    · cases h
      exact ⟨a, b, rfl, by rw [pairByte, fa, fb, packNibbles_nibbles]⟩
    · cases h
  · cases h

/-- What `decodeR` accepts (R60). -/
theorem decodeR_ok {mk : Reg → Instr} {b1 : Byte} {i : Instr} (h : decodeR mk b1 = .ok i) :
    ∃ a, i = mk a ∧ b1 = soloByte a := by
  unfold decodeR at h
  rcases regOfNibble_cases (hiNibble b1) with ⟨-, a, ha, fa, -⟩ | ⟨-, ha⟩ <;> simp only [ha] at h
  · split at h
    · rename_i hl
      cases h
      refine ⟨a, rfl, ?_⟩
      have hp := packNibbles_nibbles b1
      rw [hl] at hp
      rw [soloByte, fa]
      exact hp.symm
    · cases h
  · cases h

/-- `decodeRR` reads back the register byte of two registers (R72). -/
@[simp] theorem decodeRR_pairByte (mk : Reg → Reg → Instr) (a b : Reg) : decodeRR mk (pairByte a b) = .ok (mk a b) := by
  simp [decodeRR, pairByte]

/-- `decodeR` reads back the register byte of one register (R72). -/
@[simp] theorem decodeR_soloByte (mk : Reg → Instr) (a : Reg) : decodeR mk (soloByte a) = .ok (mk a) := by
  simp [decodeR, soloByte]

/-- The nibbles as numbers (R5). -/
theorem hiNibble_eq (b : Byte) : hiNibble b = BitVec.ofNat 4 (b.toNat / 16) := by
  apply BitVec.eq_of_toNat_eq
  have := b.isLt
  simp [hiNibble, Nat.shiftRight_eq_div_pow]

theorem loNibble_eq (b : Byte) : loNibble b = BitVec.ofNat 4 (b.toNat % 16) := by
  apply BitVec.eq_of_toNat_eq
  have := b.isLt
  simp [loNibble]

/-- What `decodeRR` rejects (R58, R61). -/
theorem decodeRR_hi (mk : Reg → Reg → Instr) {b1 : Byte} (h : 4 ≤ (hiNibble b1).toNat) :
    decodeRR mk b1 = .error (.registerIndex (hiNibble b1)) := by
  rw [decodeRR, regOfNibble_of_le h]

theorem decodeRR_lo (mk : Reg → Reg → Instr) {b1 : Byte} (h : (hiNibble b1).toNat < 4)
    (hl : 4 ≤ (loNibble b1).toNat) : decodeRR mk b1 = .error (.registerIndex (loNibble b1)) := by
  obtain ⟨a, ha, -⟩ := regOfNibble_of_lt h
  rw [decodeRR, ha, regOfNibble_of_le hl]

/-- What `decodeR` rejects (R57, R58, R61). -/
theorem decodeR_hi (mk : Reg → Instr) {b1 : Byte} (h : 4 ≤ (hiNibble b1).toNat) :
    decodeR mk b1 = .error (.registerIndex (hiNibble b1)) := by
  rw [decodeR, regOfNibble_of_le h]

theorem decodeR_lo (mk : Reg → Instr) {b1 : Byte} (h : (hiNibble b1).toNat < 4) (hl : loNibble b1 ≠ 0) :
    decodeR mk b1 = .error (.illegalEncoding b1) := by
  obtain ⟨a, ha, -⟩ := regOfNibble_of_lt h
  rw [decodeR, ha]
  simp only [hl, if_false]

end Sys2Proof
end

