-- ==== Sys2Proof/Laws/State.lean ====
section
/-! SUPPORT. The small lemmas of the state: one per field per update, so that no later proof unfolds a record update,
and the register file's read-after-write laws. -/

namespace Sys2Proof

/-- `MEM_SIZE` is 1 to 256 (R4). -/
theorem Config.memSize_pos (c : Config) : 0 < c.memSize := Nat.succ_pos _

theorem Config.memSize_le (c : Config) : c.memSize ≤ 256 := by
  have := c.lastAddr.isLt
  unfold Config.memSize; omega

end Sys2Proof

namespace Sys2Proof.Machine

@[simp] theorem State.writeReg_cfg (s : State) (a : Reg) (v : Byte) : (s.writeReg a v).cfg = s.cfg := rfl
@[simp] theorem State.writeReg_x (s : State) (a : Reg) (v : Byte) : (s.writeReg a v).x = s.x.set a v := rfl
@[simp] theorem State.writeReg_ip (s : State) (a : Reg) (v : Byte) : (s.writeReg a v).ip = s.ip := rfl
@[simp] theorem State.writeReg_flag (s : State) (a : Reg) (v : Byte) : (s.writeReg a v).flag = s.flag := rfl
@[simp] theorem State.writeReg_run (s : State) (a : Reg) (v : Byte) : (s.writeReg a v).run = s.run := rfl
@[simp] theorem State.writeReg_mem (s : State) (a : Reg) (v : Byte) : (s.writeReg a v).mem = s.mem := rfl

@[simp] theorem State.advance_cfg (s : State) (n : Nat) : (s.advance n).cfg = s.cfg := rfl
@[simp] theorem State.advance_x (s : State) (n : Nat) : (s.advance n).x = s.x := rfl
@[simp] theorem State.advance_ip (s : State) (n : Nat) : (s.advance n).ip = s.ipPlus n := rfl
@[simp] theorem State.advance_flag (s : State) (n : Nat) : (s.advance n).flag = s.flag := rfl
@[simp] theorem State.advance_run (s : State) (n : Nat) : (s.advance n).run = s.run := rfl
@[simp] theorem State.advance_mem (s : State) (n : Nat) : (s.advance n).mem = s.mem := rfl

@[simp] theorem State.raise_cfg (s : State) (c : Fault) : (s.raise c).cfg = s.cfg := rfl
@[simp] theorem State.raise_x (s : State) (c : Fault) : (s.raise c).x = s.x := rfl
@[simp] theorem State.raise_ip (s : State) (c : Fault) : (s.raise c).ip = s.ip := rfl
@[simp] theorem State.raise_flag (s : State) (c : Fault) : (s.raise c).flag = s.flag := rfl
@[simp] theorem State.raise_run (s : State) (c : Fault) : (s.raise c).run = .faulted c s.ip := rfl
@[simp] theorem State.raise_mem (s : State) (c : Fault) : (s.raise c).mem = s.mem := rfl

@[simp] theorem State.resetWith_cfg (c : Config) : (State.resetWith c).cfg = c := rfl
@[simp] theorem State.resetWith_ip (c : Config) : (State.resetWith c).ip = 0#8 := rfl
@[simp] theorem State.resetWith_flag (c : Config) : (State.resetWith c).flag = c.flagReset := rfl
@[simp] theorem State.resetWith_run (c : Config) : (State.resetWith c).run = .running := rfl
@[simp] theorem State.resetWith_mem (c : Config) : (State.resetWith c).mem = Memory.empty := rfl

theorem Regs.get_set (x : Regs) (a r : Reg) (v : Byte) :
    (x.set a v).get r = if r = a then v else x.get r := by
  cases a <;> cases r <;> rfl

@[simp] theorem Regs.get_set_same (x : Regs) (a : Reg) (v : Byte) : (x.set a v).get a = v := by
  simp [Regs.get_set]

theorem Regs.get_set_other (x : Regs) {a r : Reg} (v : Byte) (h : r ≠ a) : (x.set a v).get r = x.get r := by
  simp [Regs.get_set, h]

/-- A register file is its four registers. -/
theorem Regs.ext_get {x y : Regs} (h : ∀ r, x.get r = y.get r) : x = y := by
  cases x; cases y
  have h0 := h .r0; have h1 := h .r1; have h2 := h .r2; have h3 := h .r3
  simp only [Regs.get] at h0 h1 h2 h3
  simp [h0, h1, h2, h3]

theorem State.readReg_writeReg (s : State) (a r : Reg) (v : Byte) :
    (s.writeReg a v).readReg r = if r = a then v else s.readReg r := Regs.get_set s.x a r v

@[simp] theorem State.readReg_writeReg_same (s : State) (a : Reg) (v : Byte) :
    (s.writeReg a v).readReg a = v := Regs.get_set_same s.x a v

@[simp] theorem State.readReg_advance (s : State) (n : Nat) (r : Reg) : (s.advance n).readReg r = s.readReg r := rfl
@[simp] theorem State.readReg_raise (s : State) (c : Fault) (r : Reg) : (s.raise c).readReg r = s.readReg r := rfl

@[simp] theorem State.memSize_writeReg (s : State) (a : Reg) (v : Byte) : (s.writeReg a v).memSize = s.memSize := rfl
@[simp] theorem State.memSize_advance (s : State) (n : Nat) : (s.advance n).memSize = s.memSize := rfl
@[simp] theorem State.memSize_raise (s : State) (c : Fault) : (s.raise c).memSize = s.memSize := rfl
@[simp] theorem State.ipPlus_writeReg (s : State) (a : Reg) (v : Byte) (n : Nat) :
    (s.writeReg a v).ipPlus n = s.ipPlus n := rfl

theorem State.memSize_pos (s : State) : 0 < s.memSize := s.cfg.memSize_pos
theorem State.memSize_le (s : State) : s.memSize ≤ 256 := s.cfg.memSize_le

/-- The advance of `ip` as a number (R12). -/
theorem State.toNat_ipPlus (s : State) (n : Nat) : (s.ipPlus n).toNat = (s.ip.toNat + n) % s.memSize := by
  have h := Nat.mod_lt (s.ip.toNat + n) s.memSize_pos
  have := s.memSize_le
  simp only [State.ipPlus, BitVec.toNat_ofNat]
  omega

/-- An advance leaves `ip` inside memory (R33). -/
theorem State.ipPlus_lt (s : State) (n : Nat) : (s.ipPlus n).toNat < s.memSize := by
  rw [s.toNat_ipPlus]; exact Nat.mod_lt _ s.memSize_pos

/-- Advancing twice is advancing by the sum, so the fetches of a step add up to the instruction's length (R13). -/
theorem State.advance_advance (s : State) (m n : Nat) : (s.advance m).advance n = s.advance (m + n) := by
  have h : (s.advance m).ipPlus n = s.ipPlus (m + n) := by
    apply BitVec.eq_of_toNat_eq
    rw [State.toNat_ipPlus, State.toNat_ipPlus, State.advance_ip, State.toNat_ipPlus, State.memSize_advance]
    rw [Nat.mod_add_mod, Nat.add_assoc]
  show ({ (s.advance m) with ip := (s.advance m).ipPlus n } : State) = _
  rw [h]; rfl

end Sys2Proof.Machine
end

