-- ==== Sys2Proof/Laws/Memory.lean ====
section
/-! SUPPORT. The laws of memory: a read after a write, and the canonical form, which every operation keeps. -/

namespace Sys2Proof.Machine

@[simp] theorem Memory.read_empty (a : Nat) : Memory.empty.read a = Memory.unlisted := rfl

/-- In a list of rising addresses all above `a`, `a` is not listed. -/
theorem Memory.lookup_of_all_above {l : List Host.Cell} {a : Nat} (h : ∀ c ∈ l, a < c.1) :
    Memory.lookup l a = Memory.unlisted := by
  induction l with
  | nil => rfl
  | cons c t ih =>
    obtain ⟨k, v⟩ := c
    have hk : a < k := h (k, v) (by simp)
    have ht : ∀ c ∈ t, a < c.1 := fun c hc => h c (by simp [hc])
    simp [Memory.lookup, Nat.ne_of_gt hk, ih ht]

/-- What a replaced list gives at an address. -/
theorem Memory.lookup_replace {l : List Host.Cell} (h : l.Pairwise (fun p q => p.1 < q.1)) (a : Nat) (v : Byte)
    (b : Nat) : Memory.lookup (Memory.replace l a v) b = if b = a then v else Memory.lookup l b := by
  induction l with
  | nil =>
    have hc : a = b ↔ b = a := eq_comm
    by_cases hv : v = Memory.unlisted <;> by_cases hb : b = a <;> simp [Memory.replace, Memory.lookup, hv, hc, hb]
  | cons c t ih =>
    obtain ⟨k, w⟩ := c
    obtain ⟨hk, ht⟩ := List.pairwise_cons.mp h
    have above : ∀ x ≤ k, Memory.lookup t x = Memory.unlisted := fun x hx =>
      Memory.lookup_of_all_above fun c hc => Nat.lt_of_le_of_lt hx (hk c hc)
    rcases Nat.lt_trichotomy a k with hlt | heq | hgt
    · have hka : k ≠ a := Nat.ne_of_gt hlt
      by_cases hv : v = Memory.unlisted
      · by_cases hb : b = a
        · simp [Memory.replace, Memory.lookup, hlt, hv, hb, hka, above a (Nat.le_of_lt hlt)]
        · simp [Memory.replace, hlt, hv, hb]
      · by_cases hb : b = a
        · simp [Memory.replace, Memory.lookup, hlt, hv, hb]
        · simp [Memory.replace, Memory.lookup, hlt, hv, hb, Ne.symm hb]
    · subst heq
      by_cases hv : v = Memory.unlisted
      · by_cases hb : b = a
        · simp [Memory.replace, hv, hb, above a (Nat.le_refl a)]
        · simp [Memory.replace, Memory.lookup, hv, hb, Ne.symm hb]
      · by_cases hb : b = a
        · simp [Memory.replace, Memory.lookup, hv, hb]
        · simp [Memory.replace, Memory.lookup, hv, hb, Ne.symm hb]
    · have h1 : ¬ a < k := Nat.not_lt.mpr (Nat.le_of_lt hgt)
      have h2 : a ≠ k := Nat.ne_of_gt hgt
      by_cases hkb : k = b
      · subst hkb
        simp [Memory.replace, Memory.lookup, h1, h2, Ne.symm h2]
      · simp [Memory.replace, Memory.lookup, h1, h2, hkb, ih ht]

/-- A read after a write (R36, R39). -/
theorem Memory.read_write {m : Memory} (h : m.wf) (a : Nat) (v : Byte) (b : Nat) :
    (m.write a v).read b = if b = a then v else m.read b := Memory.lookup_replace h.1 a v b

theorem Memory.read_write_same {m : Memory} (h : m.wf) (a : Nat) (v : Byte) : (m.write a v).read a = v := by
  simp [Memory.read_write h]

/-- A write leaves every other address alone, in any memory. -/
theorem Memory.read_write_other (m : Memory) {a b : Nat} (v : Byte) (hb : b ≠ a) :
    (m.write a v).read b = m.read b := by
  have key : ∀ l : List Host.Cell, Memory.lookup (Memory.replace l a v) b = Memory.lookup l b := by
    intro l
    induction l with
    | nil =>
      unfold Memory.replace
      split
      · rfl
      · simp [Memory.lookup, Ne.symm hb]
    | cons c t ih =>
      obtain ⟨k, w⟩ := c
      unfold Memory.replace
      split
      · split
        · rfl
        · simp [Memory.lookup, Ne.symm hb]
      · split
        · rename_i hk
          subst hk
          split <;> simp [Memory.lookup, Ne.symm hb]
        · simp [Memory.lookup, ih]
  exact key m.cells

/-- Every cell of a replaced list is the new one or an old one. -/
theorem Memory.mem_replace {l : List Host.Cell} {a : Nat} {v : Byte} {c : Host.Cell}
    (h : c ∈ Memory.replace l a v) : (c = (a, v) ∧ v ≠ Memory.unlisted) ∨ c ∈ l := by
  induction l with
  | nil =>
    by_cases hv : v = Memory.unlisted
    · simp [Memory.replace, hv] at h
    · simp [Memory.replace, hv] at h; exact .inl ⟨h, hv⟩
  | cons d t ih =>
    obtain ⟨k, w⟩ := d
    unfold Memory.replace at h
    split at h
    · split at h
      · exact .inr h
      · rename_i hv
        rcases List.mem_cons.mp h with h | h
        · exact .inl ⟨h, hv⟩
        · exact .inr h
    · split at h
      · split at h
        · exact .inr (List.mem_cons_of_mem _ h)
        · rename_i hv
          rcases List.mem_cons.mp h with h | h
          · exact .inl ⟨h, hv⟩
          · exact .inr (List.mem_cons_of_mem _ h)
      · rcases List.mem_cons.mp h with h | h
        · exact .inr (h ▸ List.mem_cons_self ..)
        · rcases ih h with h | h
          · exact .inl h
          · exact .inr (List.mem_cons_of_mem _ h)

theorem Memory.replace_rising {l : List Host.Cell} (h : l.Pairwise (fun p q => p.1 < q.1)) (a : Nat) (v : Byte) :
    (Memory.replace l a v).Pairwise (fun p q => p.1 < q.1) := by
  induction l with
  | nil => unfold Memory.replace; split <;> simp
  | cons d t ih =>
    obtain ⟨k, w⟩ := d
    obtain ⟨hk, ht⟩ := List.pairwise_cons.mp h
    unfold Memory.replace
    split
    · rename_i hlt
      split
      · exact h
      · refine List.pairwise_cons.mpr ⟨fun c hc => ?_, h⟩
        rcases List.mem_cons.mp hc with hc | hc
        · subst hc; exact hlt
        · exact Nat.lt_trans hlt (hk c hc)
    · rename_i hlt
      split
      · rename_i heq
        split
        · exact ht
        · exact List.pairwise_cons.mpr ⟨fun c hc => heq ▸ hk c hc, ht⟩
      · rename_i hne
        refine List.pairwise_cons.mpr ⟨fun c hc => ?_, ih ht⟩
        rcases Memory.mem_replace hc with ⟨hc, -⟩ | hc
        · subst hc; show k < a; omega
        · exact hk c hc

/-- A write keeps the canonical form. -/
theorem Memory.write_wf {m : Memory} (h : m.wf) (a : Nat) (v : Byte) : (m.write a v).wf :=
  ⟨Memory.replace_rising h.1 a v, fun c hc => by
    rcases Memory.mem_replace hc with ⟨hc, hv⟩ | hc
    · subst hc; exact hv
    · exact h.2 c hc⟩

/-- A write below `n` keeps every listed address below `n`. -/
theorem Memory.write_below {m : Memory} {n a : Nat} (h : m.below n) (ha : a < n) (v : Byte) :
    (m.write a v).below n := fun c hc => by
  rcases Memory.mem_replace hc with ⟨hc, -⟩ | hc
  · subst hc; exact ha
  · exact h c hc

theorem Memory.empty_wf : Memory.empty.wf := ⟨List.Pairwise.nil, fun _ h => nomatch h⟩

theorem Memory.empty_below (n : Nat) : Memory.empty.below n := fun _ h => nomatch h

/-- Writing a list keeps the canonical form. -/
theorem Memory.writeList_wf {m : Memory} (h : m.wf) (a : Nat) (vs : List Byte) : (m.writeList a vs).wf := by
  induction vs generalizing m a with
  | nil => exact h
  | cons v vs ih => exact ih (Memory.write_wf h a v) (a + 1)

theorem Memory.writeList_below {m : Memory} {n : Nat} (h : m.below n) (a : Nat) (vs : List Byte)
    (hn : a + vs.length ≤ n) : (m.writeList a vs).below n := by
  induction vs generalizing m a with
  | nil => exact h
  | cons v vs ih =>
    simp only [List.length_cons] at hn
    exact ih (Memory.write_below h (by omega) v) (a + 1) (by omega)

/-- What a list written from `a` on leaves at an address (R151). -/
theorem Memory.read_writeList {m : Memory} (h : m.wf) (a : Nat) (vs : List Byte) (b : Nat) :
    (m.writeList a vs).read b = if a ≤ b ∧ b < a + vs.length then vs.getD (b - a) 0#8 else m.read b := by
  induction vs generalizing m a with
  | nil =>
    have : ¬ (a ≤ b ∧ b < a + 0) := by omega
    simp only [Memory.writeList, List.length_nil, this, if_false]
  | cons v vs ih =>
    simp only [Memory.writeList, List.length_cons]
    rw [ih (Memory.write_wf h a v), Memory.read_write h]
    by_cases hb : b = a
    · subst hb
      have h1 : ¬ (b + 1 ≤ b ∧ b < b + 1 + vs.length) := by omega
      have h2 : b ≤ b ∧ b < b + (vs.length + 1) := by omega
      rw [if_neg h1, if_pos rfl, if_pos h2, Nat.sub_self, List.getD_cons_zero]
    · by_cases hc : a + 1 ≤ b ∧ b < a + 1 + vs.length
      · have h2 : a ≤ b ∧ b < a + (vs.length + 1) := by omega
        have h3 : b - a = (b - (a + 1)) + 1 := by omega
        rw [if_pos hc, if_pos h2, h3, List.getD_cons_succ]
      · have h2 : ¬ (a ≤ b ∧ b < a + (vs.length + 1)) := by omega
        rw [if_neg hc, if_neg h2, if_neg hb]

end Sys2Proof.Machine
end

