-- ==== Sys2Proof/Laws/Ops.lean ====
section
/-! SUPPORT. One lemma for each shared operation: everything it can do. -/

namespace Sys2Proof.Machine

/-- `MemRead` inside memory (R31). -/
theorem State.memRead_of_lt {s : State} {addr : Byte} (h : addr.toNat < s.memSize) :
    s.memRead addr = .ok (s.mem.read addr.toNat) := by
  simp [State.memRead, Nat.not_le.mpr h]

/-- `MemRead` beyond memory (R31, R32). -/
theorem State.memRead_of_le {s : State} {addr : Byte} (h : s.memSize ≤ addr.toNat) :
    s.memRead addr = .error (.dataBounds addr) := by
  simp [State.memRead, h]

/-- `MemWrite` inside memory (R31). -/
theorem State.memWrite_of_lt {s : State} {addr : Byte} (v : Byte) (h : addr.toNat < s.memSize) :
    s.memWrite addr v = .ok { s with mem := s.mem.write addr.toNat v } := by
  simp [State.memWrite, Nat.not_le.mpr h]

/-- `MemWrite` beyond memory (R31, R32). -/
theorem State.memWrite_of_le {s : State} {addr : Byte} (v : Byte) (h : s.memSize ≤ addr.toNat) :
    s.memWrite addr v = .error (.dataBounds addr) := by
  simp [State.memWrite, h]

/-- `Fetch()` inside memory (R33). -/
theorem State.fetch_of_lt {s : State} (h : s.ip.toNat < s.memSize) :
    s.fetch = .ok (s.mem.read s.ip.toNat, s.advance 1) := by
  simp [State.fetch, Nat.not_le.mpr h]

/-- `Fetch()` beyond memory (R33). -/
theorem State.fetch_of_le {s : State} (h : s.memSize ≤ s.ip.toNat) : s.fetch = .error (.fetchBounds s.ip) := by
  simp [State.fetch, h]

/-- After an advance the next fetch cannot fault, and it reads the byte that many places on (R33). -/
theorem State.fetch_advance (s : State) (n : Nat) :
    (s.advance n).fetch = .ok (s.codeByte n, s.advance (n + 1)) := by
  rw [State.fetch_of_lt (by simpa using s.ipPlus_lt n), State.advance_advance]
  simp [State.codeByte, State.toNat_ipPlus]

/-- Completing an instruction always answers a next state (R13). -/
@[simp] theorem retire_eq (n : Nat) (s : State) : retire n s = .next (s.advance n) := rfl

/-- `trunc8` of a natural number keeps it modulo 256 (R6). -/
theorem trunc8_natCast (n : Nat) : trunc8 n = BitVec.ofNat 8 n := by
  apply BitVec.eq_of_toNat_eq
  simp only [trunc8, BitVec.toNat_ofInt, BitVec.toNat_ofNat]
  omega

theorem toNat_trunc8_add (a b : Byte) : (trunc8 (a.toNat + b.toNat)).toNat = (a.toNat + b.toNat) % 256 := by
  simp only [trunc8, BitVec.toNat_ofInt]; omega

theorem toNat_trunc8_sub (a b : Byte) : (trunc8 (a.toNat - b.toNat)).toNat = (a.toNat + 256 - b.toNat) % 256 := by
  have := b.isLt
  simp only [trunc8, BitVec.toNat_ofInt]; omega

theorem toNat_trunc8_mul (a b : Byte) : (trunc8 (a.toNat * b.toNat)).toNat = (a.toNat * b.toNat) % 256 := by
  have h : ((a.toNat : Int) * b.toNat) = ((a.toNat * b.toNat : Nat) : Int) := by simp
  rw [h, trunc8_natCast, BitVec.toNat_ofNat]

theorem toNat_trunc8_succ (a : Byte) : (trunc8 (a.toNat + 1)).toNat = (a.toNat + 1) % 256 := by
  simp only [trunc8, BitVec.toNat_ofInt]; omega

theorem toNat_trunc8_pred (a : Byte) : (trunc8 (a.toNat - 1)).toNat = (a.toNat + 255) % 256 := by
  have := a.isLt
  simp only [trunc8, BitVec.toNat_ofInt]; omega

/-- The three outcomes of `ord` (R6). -/
theorem ord_eq_less {a b : Byte} : ord a b = .less ↔ a.toNat < b.toNat := by
  unfold ord; split
  · simp_all
  · split <;> simp_all

theorem ord_eq_equal {a b : Byte} : ord a b = .equal ↔ a.toNat = b.toNat := by
  unfold ord; split
  · simp; omega
  · split <;> simp_all

theorem ord_eq_greater {a b : Byte} : ord a b = .greater ↔ b.toNat < a.toNat := by
  unfold ord; split
  · simp; omega
  · split <;> simp <;> omega

/-- What a jump can do (R111). -/
theorem jump_eq (c : Condition) (t : Target) (s : State) :
    jump c t s = .next (if c.taken s.flag then { s with ip := s.target t } else s.advance 2) := by
  unfold jump; split <;> simp_all

end Sys2Proof.Machine
end

