-- ==== Sys2Proof/Laws/Exec.lean ====
section
/-! SUPPORT. What an instruction can do, said once: `exec_cases` is the inversion lemma that later proofs cite. -/

namespace Sys2Proof.Machine

/-- Everything `div` can do (R94). -/
theorem execDiv_eq (a b : Reg) (s : State) :
    execDiv a b s = .next (if (s.readReg b).toNat = 0 then s.raise .divideByZero
      else ((s.writeReg .r0 (BitVec.ofNat 8 ((s.readReg a).toNat / (s.readReg b).toNat))).writeReg .r1
        (BitVec.ofNat 8 ((s.readReg a).toNat % (s.readReg b).toNat))).advance 2) := by
  unfold execDiv; simp only; split <;> rfl

/-- Everything `load` can do (R100). -/
theorem execLoad_eq (a b : Reg) (s : State) :
    execLoad a b s = .next (if s.memSize ≤ (s.readReg b).toNat then s.raise (.dataBounds (s.readReg b))
      else (s.writeReg a (s.mem.read (s.readReg b).toNat)).advance 2) := by
  unfold execLoad State.memRead State.effectiveAddress
  by_cases h : s.memSize ≤ (s.readReg b).toNat <;> simp [h]

/-- Everything `store` can do (R101). -/
theorem execStore_eq (a b : Reg) (s : State) :
    execStore a b s = .next (if s.memSize ≤ (s.readReg a).toNat then s.raise (.dataBounds (s.readReg a))
      else State.advance { s with mem := s.mem.write (s.readReg a).toNat (s.readReg b) } 2) := by
  unfold execStore State.memWrite State.effectiveAddress
  by_cases h : s.memSize ≤ (s.readReg a).toNat <;> simp [h]

/-- Every instruction's next state, in one equation: the meanings with their shared operations evaluated (R80 to R118). -/
theorem exec_eq (i : Instr) (s : State) : exec i s = .next (match i with
  | .nop => s.advance 1
  | .halt => State.advance { s with run := .halted } 1
  | .add a b => (s.writeReg a (trunc8 ((s.readReg a).toNat + (s.readReg b).toNat))).advance 2
  | .sub a b => (s.writeReg a (trunc8 ((s.readReg a).toNat - (s.readReg b).toNat))).advance 2
  | .mul a b => (s.writeReg a (trunc8 ((s.readReg a).toNat * (s.readReg b).toNat))).advance 2
  | .div a b => if (s.readReg b).toNat = 0 then s.raise .divideByZero
      else ((s.writeReg .r0 (BitVec.ofNat 8 ((s.readReg a).toNat / (s.readReg b).toNat))).writeReg .r1
        (BitVec.ofNat 8 ((s.readReg a).toNat % (s.readReg b).toNat))).advance 2
  | .inc a => (s.writeReg a (trunc8 ((s.readReg a).toNat + 1))).advance 2
  | .dec a => (s.writeReg a (trunc8 ((s.readReg a).toNat - 1))).advance 2
  | .load a b => if s.memSize ≤ (s.readReg b).toNat then s.raise (.dataBounds (s.readReg b))
      else (s.writeReg a (s.mem.read (s.readReg b).toNat)).advance 2
  | .store a b => if s.memSize ≤ (s.readReg a).toNat then s.raise (.dataBounds (s.readReg a))
      else State.advance { s with mem := s.mem.write (s.readReg a).toNat (s.readReg b) } 2
  | .mov a b => (s.writeReg a (s.readReg b)).advance 2
  | .put a v => (s.writeReg a v).advance 3
  | .cmp a b => State.advance { s with flag := ord (s.readReg a) (s.readReg b) } 2
  | .jmpR a => { s with ip := s.readReg a }
  | .jmpI v => { s with ip := v }
  | .jlR a => if s.flag = .less then { s with ip := s.readReg a } else s.advance 2
  | .jlI a => if s.flag = .less then { s with ip := a } else s.advance 2
  | .jeR a => if s.flag = .equal then { s with ip := s.readReg a } else s.advance 2
  | .jeI a => if s.flag = .equal then { s with ip := a } else s.advance 2
  | .jgR a => if s.flag = .greater then { s with ip := s.readReg a } else s.advance 2
  | .jgI a => if s.flag = .greater then { s with ip := a } else s.advance 2
  | .jnlR a => if s.flag ≠ .less then { s with ip := s.readReg a } else s.advance 2
  | .jnlI a => if s.flag ≠ .less then { s with ip := a } else s.advance 2
  | .jneR a => if s.flag ≠ .equal then { s with ip := s.readReg a } else s.advance 2
  | .jneI a => if s.flag ≠ .equal then { s with ip := a } else s.advance 2
  | .jngR a => if s.flag ≠ .greater then { s with ip := s.readReg a } else s.advance 2
  | .jngI a => if s.flag ≠ .greater then { s with ip := a } else s.advance 2) := by
  have hj := fun c t => jump_eq c t s
  cases i with
  | div a b => exact execDiv_eq a b s
  | load a b => exact execLoad_eq a b s
  | store a b => exact execStore_eq a b s
  | _ => first
    | rfl
    | (refine (hj _ _).trans ?_; simp [Condition.taken, State.target])

/-- How a step's effect on memory and `run` can look: a fault was raised; or memory is unchanged and the engine runs
on as it did or has halted; or one cell inside memory was written. -/
inductive Effect (i : Instr) (s t : State) : Prop where
  | raised (cause : Fault) (same : t = s.raise cause)
  | plain (mem : t.mem = s.mem) (run : t.run = s.run)
  | halts (isHalt : i = .halt) (mem : t.mem = s.mem) (run : t.run = .halted)
  | stored (a b : Reg) (isStore : i = .store a b) (inside : (s.readReg a).toNat < s.memSize)
      (mem : t.mem = s.mem.write (s.readReg a).toNat (s.readReg b)) (run : t.run = s.run)

/-- A jump writes only `ip` (R111). -/
theorem jump_plain {i : Instr} (c : Condition) (target : Target) (s : State) :
    ∃ t, jump c target s = .next t ∧ t.cfg = s.cfg ∧ Effect i s t := by
  refine ⟨_, jump_eq c target s, ?_⟩
  split
  · exact ⟨rfl, .plain rfl rfl⟩
  · exact ⟨rfl, .plain rfl rfl⟩

/-- Every instruction answers a next state, under the same model arguments, with one of the effects above. -/
theorem exec_cases (i : Instr) (s : State) :
    ∃ t, exec i s = .next t ∧ t.cfg = s.cfg ∧ Effect i s t := by
  cases i with
  | div a b =>
    refine ⟨_, execDiv_eq a b s, ?_⟩
    split
    · exact ⟨rfl, .raised _ rfl⟩
    · exact ⟨rfl, .plain rfl rfl⟩
  | load a b =>
    refine ⟨_, execLoad_eq a b s, ?_⟩
    split
    · exact ⟨rfl, .raised _ rfl⟩
    · exact ⟨rfl, .plain rfl rfl⟩
  | store a b =>
    refine ⟨_, execStore_eq a b s, ?_⟩
    split
    · exact ⟨rfl, .raised _ rfl⟩
    · exact ⟨rfl, .stored a b rfl (by omega) rfl rfl⟩
  | halt => exact ⟨_, rfl, rfl, .halts rfl rfl rfl⟩
  | nop => exact ⟨_, rfl, rfl, .plain rfl rfl⟩
  | add a b => exact ⟨_, rfl, rfl, .plain rfl rfl⟩
  | sub a b => exact ⟨_, rfl, rfl, .plain rfl rfl⟩
  | mul a b => exact ⟨_, rfl, rfl, .plain rfl rfl⟩
  | inc a => exact ⟨_, rfl, rfl, .plain rfl rfl⟩
  | dec a => exact ⟨_, rfl, rfl, .plain rfl rfl⟩
  | mov a b => exact ⟨_, rfl, rfl, .plain rfl rfl⟩
  | put a v => exact ⟨_, rfl, rfl, .plain rfl rfl⟩
  | cmp a b => exact ⟨_, rfl, rfl, .plain rfl rfl⟩
  | jmpR a => exact jump_plain .always (.inRegister a) s
  | jmpI v => exact jump_plain .always (.immediate v) s
  | jlR a => exact jump_plain (.ifFlag .less) (.inRegister a) s
  | jlI v => exact jump_plain (.ifFlag .less) (.immediate v) s
  | jeR a => exact jump_plain (.ifFlag .equal) (.inRegister a) s
  | jeI v => exact jump_plain (.ifFlag .equal) (.immediate v) s
  | jgR a => exact jump_plain (.ifFlag .greater) (.inRegister a) s
  | jgI v => exact jump_plain (.ifFlag .greater) (.immediate v) s
  | jnlR a => exact jump_plain (.unlessFlag .less) (.inRegister a) s
  | jnlI v => exact jump_plain (.unlessFlag .less) (.immediate v) s
  | jneR a => exact jump_plain (.unlessFlag .equal) (.inRegister a) s
  | jneI v => exact jump_plain (.unlessFlag .equal) (.immediate v) s
  | jngR a => exact jump_plain (.unlessFlag .greater) (.inRegister a) s
  | jngI v => exact jump_plain (.unlessFlag .greater) (.immediate v) s

/-- A meaning that answers `t` has one of the effects above. -/
theorem effect_of_exec {i : Instr} {s t : State} (h : exec i s = .next t) : t.cfg = s.cfg ∧ Effect i s t := by
  obtain ⟨u, hu, he⟩ := exec_cases i s
  rw [h] at hu
  cases hu
  exact he

end Sys2Proof.Machine
end

