-- ==== Sys2Proof/Laws/Step.lean ====
section
/-! SUPPORT. What a step can do, said once. -/

namespace Sys2Proof.Machine

/-- Inside memory the next instruction is what the decoder reads from the three bytes at `ip` (R33, R60). -/
theorem State.fetchDecode_of_ok {s : State} {i : Instr} (h : s.ip.toNat < s.memSize)
    (hd : decode (s.codeByte 0) (s.codeByte 1) (s.codeByte 2) = .ok i) : s.fetchDecode = .ok i := by
  simp [State.fetchDecode, Nat.not_le.mpr h, hd]

/-- Inside memory a rejection of the decoder is the fault (R57, R58). -/
theorem State.fetchDecode_of_error {s : State} {e : DecodeError} (h : s.ip.toNat < s.memSize)
    (hd : decode (s.codeByte 0) (s.codeByte 1) (s.codeByte 2) = .error e) :
    s.fetchDecode = .error (Fault.ofDecode e) := by
  simp [State.fetchDecode, Nat.not_le.mpr h, hd]

/-- An instruction is fetched only from inside memory, and is what the decoder reads there. -/
theorem State.fetchDecode_ok_inv {s : State} {i : Instr} (h : s.fetchDecode = .ok i) :
    s.ip.toNat < s.memSize ∧ decode (s.codeByte 0) (s.codeByte 1) (s.codeByte 2) = .ok i := by
  unfold State.fetchDecode at h
  split at h
  · cases h
  · rename_i hlt
    cases hd : decode (s.codeByte 0) (s.codeByte 1) (s.codeByte 2) with
    | ok j => rw [hd] at h; cases h; exact ⟨Nat.not_le.mp hlt, rfl⟩
    | error e => rw [hd] at h; cases h

/-- A fault of the fetch or the decoder is out of bounds, or a rejection of the decoder. -/
theorem State.fetchDecode_error_inv {s : State} {f : Fault} (h : s.fetchDecode = .error f) :
    (s.memSize ≤ s.ip.toNat ∧ f = .fetchBounds s.ip) ∨
    (s.ip.toNat < s.memSize ∧
      ∃ e, decode (s.codeByte 0) (s.codeByte 1) (s.codeByte 2) = .error e ∧ f = Fault.ofDecode e) := by
  unfold State.fetchDecode at h
  split at h
  · rename_i hle; cases h; exact .inl ⟨hle, rfl⟩
  · rename_i hlt
    cases hd : decode (s.codeByte 0) (s.codeByte 1) (s.codeByte 2) with
    | ok j => rw [hd] at h; cases h
    | error e => rw [hd] at h; cases h; exact .inr ⟨Nat.not_le.mp hlt, e, rfl, rfl⟩

/-- Beyond memory the fetch faults (R33). -/
theorem State.fetchDecode_of_le {s : State} (h : s.memSize ≤ s.ip.toNat) :
    s.fetchDecode = .error (.fetchBounds s.ip) := by
  simp [State.fetchDecode, h]

/-- A step of a running engine whose next instruction is `i` (R60). -/
theorem step_of_ok {s : State} {i : Instr} (hr : s.run = .running) (h : s.fetchDecode = .ok i) :
    step s = exec i s := by
  simp [step, hr, h]

/-- A step of a running engine whose next instruction cannot be fetched or decoded (R60, R131). -/
theorem step_of_error {s : State} {f : Fault} (hr : s.run = .running) (h : s.fetchDecode = .error f) :
    step s = .next (s.raise f) := by
  simp [step, hr, h]

/-- A step requested of an engine that is over (R15). -/
theorem step_of_over {s : State} (h : Over s) : step s = .next s := by
  unfold step
  cases hr : s.run with
  | running => exact absurd hr h
  | halted => rfl
  | faulted c o => rfl

/-- Everything a step can do: nothing, raise a fault of the fetch or the decoder, or execute an instruction. -/
theorem step_cases (s : State) :
    (Over s ∧ step s = .next s) ∨
    (s.run = .running ∧ ∃ f, s.fetchDecode = .error f ∧ step s = .next (s.raise f)) ∨
    (s.run = .running ∧ ∃ i, s.fetchDecode = .ok i ∧ step s = exec i s) := by
  by_cases hr : s.run = .running
  · cases h : s.fetchDecode with
    | error f => exact .inr (.inl ⟨hr, f, rfl, step_of_error hr h⟩)
    | ok i => exact .inr (.inr ⟨hr, i, rfl, step_of_ok hr h⟩)
  · exact .inl ⟨hr, step_of_over hr⟩

/-- Every step has a next state, under the same model arguments. -/
theorem step_next (s : State) : ∃ t, step s = .next t ∧ t.cfg = s.cfg := by
  rcases step_cases s with ⟨-, h⟩ | ⟨-, f, -, h⟩ | ⟨-, i, -, h⟩
  · exact ⟨s, h, rfl⟩
  · exact ⟨_, h, rfl⟩
  · obtain ⟨t, ht, hc, -⟩ := exec_cases i s
    exact ⟨t, h.trans ht, hc⟩

/-- A run of no steps. -/
@[simp] theorem run_zero (s : State) : core.run 0 s = .next s := rfl

/-- A run takes its first step and goes on from there. -/
theorem run_succ {s t : State} (n : Nat) (h : step s = .next t) : core.run (n + 1) s = core.run n t := by
  have hc : core.step s = .next t := h
  simp only [Host.Core.run, hc]

end Sys2Proof.Machine
end

