-- ==== Sys2Proof/Laws/Boundary.lean ====
section
/-! SUPPORT. What the host's actions do, said once. -/

namespace Sys2Proof.Machine

/-- `afterStep` is the step's next state. -/
theorem State.step_eq_afterStep (s : State) : step s = .next s.afterStep := by
  obtain ⟨t, ht, -⟩ := step_next s
  simp [State.afterStep, ht]

@[simp] theorem State.afterStep_cfg (s : State) : s.afterStep.cfg = s.cfg := by
  obtain ⟨t, ht, hc⟩ := step_next s
  simp [State.afterStep, ht, hc]

@[simp] theorem State.loadProgram_cfg (s : State) (p : List Byte) : (s.loadProgram p).cfg = s.cfg := rfl
@[simp] theorem State.loadProgram_x (s : State) (p : List Byte) : (s.loadProgram p).x = s.x := rfl
@[simp] theorem State.loadProgram_ip (s : State) (p : List Byte) : (s.loadProgram p).ip = s.ip := rfl
@[simp] theorem State.loadProgram_flag (s : State) (p : List Byte) : (s.loadProgram p).flag = s.flag := rfl
@[simp] theorem State.loadProgram_run (s : State) (p : List Byte) : (s.loadProgram p).run = s.run := rfl

/-- A loaded program stands at address 0 on (R151). -/
theorem State.loadProgram_read {s : State} (h : s.mem.wf) (p : List Byte) (a : Nat) :
    (s.loadProgram p).mem.read a = if a < p.length then p.getD a 0#8 else s.mem.read a := by
  simp [State.loadProgram, Memory.read_writeList h]

/-- Every action of the host leads to one of these sessions. -/
theorem Session.act_cases (h : Session) (a : HostAction) :
    (∃ c, (h.act a).1 = Session.start c) ∨
    (∃ p : List Byte, p.length ≤ h.engine.memSize ∧ h.phase = .fresh ∧
      (h.act a).1 = { phase := .loaded, engine := h.engine.loadProgram p }) ∨
    (h.act a).1 = h ∨
    (h.act a).1 = { phase := .stepped, engine := h.engine.afterStep } := by
  cases a with
  | reset c => exact .inl ⟨c, rfl⟩
  | load p =>
    by_cases hm : h.mayLoad p = true
    · refine .inr (.inl ⟨p, ?_, ?_, by simp [Session.act, hm]⟩) <;> simp_all [Session.mayLoad]
    · exact .inr (.inr (.inl (by simp [Session.act, hm])))
  | stepRequest => exact .inr (.inr (.inr rfl))

end Sys2Proof.Machine
end

