-- ==== Sys2Proof/Laws/PerInstr.lean ====
section
/-! SUPPORT. The family `Coding` of LAWS.json: what holds of every instruction as syntax. It is well formed; its
encoding has its length; and its first byte alone tells that length (R50, R59). -/

namespace Sys2Proof.Laws.Coding

/-- The instruction is well formed, and its encoding has the length its first byte tells. -/
def Statement (i : Instr) : Prop :=
  i.WellFormed ∧ (encode i).length = i.length ∧ lengthOfFirst ((encode i).getD 0 0#8) = i.length

theorem index_lt (a : Reg) : a.index < 4 := by cases a <;> decide

theorem pair_wellFormed (a b : Reg) (m : Mnemonic) (h : m.signatures.contains [.register, .register] = true) :
    (SrcInstr.mk m [a.operand, b.operand]).wellFormed = true := by
  simpa [SrcInstr.wellFormed, SrcInstr.shapeOk, SrcInstr.resolved, SrcInstr.registersOk, SrcInstr.valuesOk,
    Operand.kind, Operand.resolved, Operand.registerOk, Operand.valueOk, Reg.operand, index_lt] using h

theorem solo_wellFormed (a : Reg) (m : Mnemonic) (h : m.signatures.contains [.register] = true) :
    (SrcInstr.mk m [a.operand]).wellFormed = true := by
  simpa [SrcInstr.wellFormed, SrcInstr.shapeOk, SrcInstr.resolved, SrcInstr.registersOk, SrcInstr.valuesOk,
    Operand.kind, Operand.resolved, Operand.registerOk, Operand.valueOk, Reg.operand, index_lt] using h

theorem value_wellFormed (t : Byte) (m : Mnemonic) (h : m.signatures.contains [.valueOrLabel] = true) :
    (SrcInstr.mk m [.value t.toNat]).wellFormed = true := by
  have := t.isLt
  simpa [SrcInstr.wellFormed, SrcInstr.shapeOk, SrcInstr.resolved, SrcInstr.registersOk, SrcInstr.valuesOk,
    Operand.kind, Operand.resolved, Operand.registerOk, Operand.valueOk, Reg.operand, this] using h

theorem soloValue_wellFormed (a : Reg) (t : Byte) (m : Mnemonic)
    (h : m.signatures.contains [.register, .valueOrLabel] = true) :
    (SrcInstr.mk m [a.operand, .value t.toNat]).wellFormed = true := by
  have := t.isLt
  simpa [SrcInstr.wellFormed, SrcInstr.shapeOk, SrcInstr.resolved, SrcInstr.registersOk, SrcInstr.valuesOk,
    Operand.kind, Operand.resolved, Operand.registerOk, Operand.valueOk, Reg.operand, index_lt, this] using h

theorem nop : Statement .nop := ⟨rfl, rfl, (by decide : lengthOfFirst 0x00#8 = 1)⟩
theorem halt : Statement .halt := ⟨rfl, rfl, (by decide : lengthOfFirst 0x10#8 = 1)⟩
theorem add (a b : Reg) : Statement (.add a b) := ⟨pair_wellFormed a b _ rfl, rfl, (by decide : lengthOfFirst 0x20#8 = 2)⟩
theorem sub (a b : Reg) : Statement (.sub a b) := ⟨pair_wellFormed a b _ rfl, rfl, (by decide : lengthOfFirst 0x30#8 = 2)⟩
theorem mul (a b : Reg) : Statement (.mul a b) := ⟨pair_wellFormed a b _ rfl, rfl, (by decide : lengthOfFirst 0x40#8 = 2)⟩
theorem div (a b : Reg) : Statement (.div a b) := ⟨pair_wellFormed a b _ rfl, rfl, (by decide : lengthOfFirst 0x50#8 = 2)⟩
theorem inc (a : Reg) : Statement (.inc a) := ⟨solo_wellFormed a _ rfl, rfl, (by decide : lengthOfFirst 0x60#8 = 2)⟩
theorem dec (a : Reg) : Statement (.dec a) := ⟨solo_wellFormed a _ rfl, rfl, (by decide : lengthOfFirst 0x70#8 = 2)⟩
theorem load (a b : Reg) : Statement (.load a b) := ⟨pair_wellFormed a b _ rfl, rfl, (by decide : lengthOfFirst 0x80#8 = 2)⟩
theorem store (a b : Reg) : Statement (.store a b) := ⟨pair_wellFormed a b _ rfl, rfl, (by decide : lengthOfFirst 0x90#8 = 2)⟩
theorem mov (a b : Reg) : Statement (.mov a b) := ⟨pair_wellFormed a b _ rfl, rfl, (by decide : lengthOfFirst 0xA0#8 = 2)⟩
theorem put (a : Reg) (imm : Byte) : Statement (.put a imm) := ⟨soloValue_wellFormed a imm _ rfl, rfl, (by decide : lengthOfFirst 0xB0#8 = 3)⟩
theorem cmp (a b : Reg) : Statement (.cmp a b) := ⟨pair_wellFormed a b _ rfl, rfl, (by decide : lengthOfFirst 0xC0#8 = 2)⟩
theorem jmpR (a : Reg) : Statement (.jmpR a) := ⟨solo_wellFormed a _ rfl, rfl, (by decide : lengthOfFirst 0xD0#8 = 2)⟩
theorem jmpI (t : Byte) : Statement (.jmpI t) := ⟨value_wellFormed t _ rfl, rfl, (by decide : lengthOfFirst 0xD1#8 = 2)⟩
theorem jlR (a : Reg) : Statement (.jlR a) := ⟨solo_wellFormed a _ rfl, rfl, (by decide : lengthOfFirst 0xE0#8 = 2)⟩
theorem jlI (t : Byte) : Statement (.jlI t) := ⟨value_wellFormed t _ rfl, rfl, (by decide : lengthOfFirst 0xE1#8 = 2)⟩
theorem jeR (a : Reg) : Statement (.jeR a) := ⟨solo_wellFormed a _ rfl, rfl, (by decide : lengthOfFirst 0xE2#8 = 2)⟩
theorem jeI (t : Byte) : Statement (.jeI t) := ⟨value_wellFormed t _ rfl, rfl, (by decide : lengthOfFirst 0xE3#8 = 2)⟩
theorem jgR (a : Reg) : Statement (.jgR a) := ⟨solo_wellFormed a _ rfl, rfl, (by decide : lengthOfFirst 0xE4#8 = 2)⟩
theorem jgI (t : Byte) : Statement (.jgI t) := ⟨value_wellFormed t _ rfl, rfl, (by decide : lengthOfFirst 0xE5#8 = 2)⟩
theorem jnlR (a : Reg) : Statement (.jnlR a) := ⟨solo_wellFormed a _ rfl, rfl, (by decide : lengthOfFirst 0xF0#8 = 2)⟩
theorem jnlI (t : Byte) : Statement (.jnlI t) := ⟨value_wellFormed t _ rfl, rfl, (by decide : lengthOfFirst 0xF1#8 = 2)⟩
theorem jneR (a : Reg) : Statement (.jneR a) := ⟨solo_wellFormed a _ rfl, rfl, (by decide : lengthOfFirst 0xF2#8 = 2)⟩
theorem jneI (t : Byte) : Statement (.jneI t) := ⟨value_wellFormed t _ rfl, rfl, (by decide : lengthOfFirst 0xF3#8 = 2)⟩
theorem jngR (a : Reg) : Statement (.jngR a) := ⟨solo_wellFormed a _ rfl, rfl, (by decide : lengthOfFirst 0xF4#8 = 2)⟩
theorem jngI (t : Byte) : Statement (.jngI t) := ⟨value_wellFormed t _ rfl, rfl, (by decide : lengthOfFirst 0xF5#8 = 2)⟩

end Sys2Proof.Laws.Coding
end

