-- ==== Sys2Proof/Tests/Slice0.lean ====
section
/-! SUPPORT. The model's own tests. Expected values are those of spec/95_test_vectors.md or of the examples inside the
rules, and the witnesses show that the hypotheses of each obligation can be met. -/

namespace Sys2Proof.Tests

open Machine Vocabulary

/-! ### Helpers -/

/-- A running engine with these registers, the program at address 0, `MEM_SIZE = la + 1`. -/
def engine (la : Byte) (x0 x1 x2 x3 : Byte) (f : Flag) (program : List Byte) : State :=
  { State.loadProgram (State.resetWith { lastAddr := la, flagReset := .equal }) program with
    x := { x0 := x0, x1 := x1, x2 := x2, x3 := x3 }, flag := f }

/-- The reference memory size and flag. -/
def eng (x0 x1 x2 x3 : Byte) (program : List Byte) : State := engine 255#8 x0 x1 x2 x3 .equal program

/-- The same engine with the instruction pointer elsewhere. -/
def from_ (ip : Byte) (s : State) : State := { s with ip := ip }

/-- The same engine with one byte of memory set. -/
def withByte (a : Nat) (v : Byte) (s : State) : State := { s with mem := s.mem.write a v }

/-- The registers, the flag, `ip` and the run state after one step. -/
def after (s : State) : Snapshot := s.afterStep.snapshot

/-- A snapshot written out. -/
def snap (x0 x1 x2 x3 : Byte) (f : Nat) (ip : Byte) (run : Run) : Snapshot :=
  { x := { x0 := x0, x1 := x1, x2 := x2, x3 := x3 }, flagNumber := f, ip := ip, run := run }

/-! ### Well-formedness: each check refuses an ill-formed term -/

theorem test_shape_refused : (SrcInstr.mk .add [.reg 0, .value 5]).shapeOk = false := by decide
theorem test_label_refused : (SrcInstr.mk .jmp [.label ['a']]).resolved = false := by decide
theorem test_register_refused : (SrcInstr.mk .inc [.reg 4]).registersOk = false := by decide
theorem test_value_refused : (SrcInstr.mk .put [.reg 0, .value 256]).valuesOk = false := by decide

theorem test_ill_formed_refused :
    (SrcInstr.mk .add [.reg 0, .value 5]).wellFormed = false ∧ (SrcInstr.mk .jmp [.label ['a']]).wellFormed = false ∧
    (SrcInstr.mk .inc [.reg 4]).wellFormed = false ∧ (SrcInstr.mk .put [.reg 0, .value 256]).wellFormed = false ∧
    (SrcInstr.mk .put [.reg 3, .value 255]).wellFormed = true := by decide

/-! ### Decoding: a word for every legal first byte (spec/95_test_vectors.md 2.1) -/

theorem test_decode_no_operand : decodeTableWord 8 0x00 = some .nop ∧ decodeTableWord 8 0x10 = some .halt := by decide

theorem test_decode_arithmetic :
    decodeTableWord 16 0x2012 = some (.add .r1 .r2) ∧ decodeTableWord 16 0x3030 = some (.sub .r3 .r0) ∧
    decodeTableWord 16 0x4003 = some (.mul .r0 .r3) ∧ decodeTableWord 16 0x5021 = some (.div .r2 .r1) ∧
    decodeTableWord 16 0x6030 = some (.inc .r3) ∧ decodeTableWord 16 0x7010 = some (.dec .r1) := by decide

theorem test_decode_move :
    decodeTableWord 16 0x8020 = some (.load .r2 .r0) ∧ decodeTableWord 16 0x9001 = some (.store .r0 .r1) ∧
    decodeTableWord 16 0xA032 = some (.mov .r3 .r2) ∧ decodeTableWord 24 0xB020FF = some (.put .r2 255#8) ∧
    decodeTableWord 16 0xC011 = some (.cmp .r1 .r1) := by decide

theorem test_decode_jump_register :
    decodeTableWord 16 0xD020 = some (.jmpR .r2) ∧ decodeTableWord 16 0xE000 = some (.jlR .r0) ∧
    decodeTableWord 16 0xE210 = some (.jeR .r1) ∧ decodeTableWord 16 0xE420 = some (.jgR .r2) ∧
    decodeTableWord 16 0xF030 = some (.jnlR .r3) ∧ decodeTableWord 16 0xF200 = some (.jneR .r0) ∧
    decodeTableWord 16 0xF410 = some (.jngR .r1) := by decide

theorem test_decode_jump_immediate :
    decodeTableWord 16 0xD1C8 = some (.jmpI 200#8) ∧ decodeTableWord 16 0xE101 = some (.jlI 1#8) ∧
    decodeTableWord 16 0xE302 = some (.jeI 2#8) ∧ decodeTableWord 16 0xE503 = some (.jgI 3#8) ∧
    decodeTableWord 16 0xF104 = some (.jnlI 4#8) ∧ decodeTableWord 16 0xF305 = some (.jneI 5#8) ∧
    decodeTableWord 16 0xF506 = some (.jngI 6#8) := by decide

/-! ### Illegal encodings and decode faults (spec/95_test_vectors.md 2.2) -/

theorem test_illegal_first_bytes :
    after (eng 0 0 0 0 [0x01#8]) = snap 0 0 0 0 1 0 (.faulted (.illegalEncoding 0x01#8) 0#8) ∧
    after (eng 0 0 0 0 [0x21#8, 0x44#8]) = snap 0 0 0 0 1 0 (.faulted (.illegalEncoding 0x21#8) 0#8) ∧
    after (eng 0 0 0 0 [0xD2#8, 0x10#8]) = snap 0 0 0 0 1 0 (.faulted (.illegalEncoding 0xD2#8) 0#8) ∧
    after (eng 0 0 0 0 [0xE7#8, 0x10#8]) = snap 0 0 0 0 1 0 (.faulted (.illegalEncoding 0xE7#8) 0#8) := by decide

theorem test_register_byte_faults :
    (after (eng 0 0 0 0 [0x20#8, 0x4F#8])).run = .faulted (.registerIndex 4#4) 0#8 ∧
    (after (eng 0 0 0 0 [0x20#8, 0x14#8])).run = .faulted (.registerIndex 4#4) 0#8 ∧
    (after (eng 0 0 0 0 [0x60#8, 0x21#8])).run = .faulted (.illegalEncoding 0x21#8) 0#8 ∧
    (after (eng 0 0 0 0 [0x60#8, 0x45#8])).run = .faulted (.registerIndex 4#4) 0#8 ∧
    (after (eng 0 0 0 0 [0xB0#8, 0x01#8, 0x05#8])).run = .faulted (.illegalEncoding 0x01#8) 0#8 ∧
    (after (eng 0 0 0 0 [0x50#8, 0x41#8])).run = .faulted (.registerIndex 4#4) 0#8 := by decide

theorem test_jump_not_taken_checks_register_byte :
    (after (engine 255#8 0 0 0 0 .less [0xE4#8, 0x50#8])).run = .faulted (.registerIndex 5#4) 0#8 := by decide

/-! ### The instructions (spec/95_test_vectors.md 2.3 to 2.6) -/

theorem test_nop_wraps_at_mem_size :
    after (from_ 99#8 (engine 99#8 0 0 0 0 .equal [])) = snap 0 0 0 0 1 0 .running := by decide

theorem test_halt : after (from_ 255#8 (withByte 255 0x10#8 (eng 3 2 0 0 []))) =
    snap 3 2 0 0 1 0 .halted := by decide

theorem test_add_wraps : after (eng 200 100 0 0 [0x20#8, 0x01#8]) = snap 44 100 0 0 1 2 .running := by decide
theorem test_add_same_register : after (eng 0 0 0 144 [0x20#8, 0x33#8]) = snap 0 0 0 32 1 2 .running := by decide
theorem test_sub_wraps : after (eng 2 5 0 0 [0x30#8, 0x01#8]) = snap 253 5 0 0 1 2 .running := by decide
theorem test_mul_keeps_low_byte : after (eng 255 255 0 0 [0x40#8, 0x01#8]) = snap 1 255 0 0 1 2 .running := by decide
theorem test_div_reads_before_writing : after (eng 5 17 0 0 [0x50#8, 0x10#8]) = snap 3 2 0 0 1 2 .running := by decide

theorem test_div_by_zero :
    after (eng 9 0 0 0 [0x50#8, 0x01#8]) = snap 9 0 0 0 1 0 (.faulted .divideByZero 0#8) := by decide

theorem test_inc_wraps : after (eng 0 0 0 255 [0x60#8, 0x30#8]) = snap 0 0 0 0 1 2 .running := by decide

theorem test_dec_keeps_flag :
    after (engine 255#8 1 0 0 0 .greater [0x70#8, 0x00#8]) = snap 0 0 0 0 2 2 .running := by decide

theorem test_load_own_byte : after (eng 0 0 0 0 [0x80#8, 0x10#8]) = snap 0 128 0 0 1 2 .running := by decide

theorem test_load_bounds :
    after (engine 127#8 128 5 0 0 .equal [0x80#8, 0x10#8]) =
      snap 128 5 0 0 1 0 (.faulted (.dataBounds 128#8) 0#8) := by decide

theorem test_store_address_first :
    (eng 64 200 0 0 [0x90#8, 0x01#8]).afterStep.readCell 64 = some 200#8 ∧
    after (eng 64 200 0 0 [0x90#8, 0x01#8]) = snap 64 200 0 0 1 2 .running := by decide

theorem test_store_bounds :
    after (engine 127#8 130 1 0 0 .equal [0x90#8, 0x01#8]) =
      snap 130 1 0 0 1 0 (.faulted (.dataBounds 130#8) 0#8) := by decide

theorem test_mov_second_to_first : after (eng 9 12 0 0 [0xA0#8, 0x01#8]) = snap 12 12 0 0 1 2 .running := by decide
theorem test_put : after (eng 0 0 0 0 [0xB0#8, 0x30#8, 0xFF#8]) = snap 0 0 0 255 1 3 .running := by decide
theorem test_cmp_unsigned : after (eng 200 3 0 0 [0xC0#8, 0x01#8]) = snap 200 3 0 0 2 2 .running := by decide
theorem test_cmp_less : after (eng 0 255 0 0 [0xC0#8, 0x01#8]) = snap 0 255 0 0 0 2 .running := by decide

/-- Where a jump with this first byte and operand byte goes under less, equal, greater. -/
def goes (b0 b1 : Byte) : List Byte :=
  [Flag.less, Flag.equal, Flag.greater].map fun f => (after (engine 255#8 0 0 32 0 f [b0, b1])).ip

theorem test_jumps_immediate :
    goes 0xD1 32 = [32, 32, 32] ∧ goes 0xE1 32 = [32, 2, 2] ∧ goes 0xE3 32 = [2, 32, 2] ∧ goes 0xE5 32 = [2, 2, 32] ∧
    goes 0xF1 32 = [2, 32, 32] ∧ goes 0xF3 32 = [32, 2, 32] ∧ goes 0xF5 32 = [32, 32, 2] := by decide

theorem test_jumps_register :
    goes 0xD0 0x20 = [32, 32, 32] ∧ goes 0xE0 0x20 = [32, 2, 2] ∧ goes 0xE2 0x20 = [2, 32, 2] ∧
    goes 0xE4 0x20 = [2, 2, 32] ∧ goes 0xF0 0x20 = [2, 32, 32] ∧ goes 0xF2 0x20 = [32, 2, 32] ∧
    goes 0xF4 0x20 = [32, 32, 2] := by decide

theorem test_jump_beyond_memory_then_fetch_bounds :
    (after (engine 127#8 0 0 0 0 .equal [0xD1#8, 0x90#8])) = snap 0 0 0 0 1 144 .running ∧
    (after (engine 127#8 0 0 0 0 .equal [0xD1#8, 0x90#8]).afterStep).run = .faulted (.fetchBounds 144#8) 144#8 := by
  decide

/-- An instruction that straddles the top of memory (spec/95_test_vectors.md 2.7, third step). -/
theorem test_straddling_instruction :
    after (from_ 255#8 (withByte 255 0x60#8 (eng 3 2 0 0 [0x20#8, 0x01#8]))) =
      snap 3 2 1 0 1 1 .running := by decide

/-! ### The host boundary and the assembler (spec/95_test_vectors.md 2.8, 2.9) -/

theorem test_load_refused_when_too_long :
    ((Session.start { lastAddr := 3#8, flagReset := .equal }).act (.load (List.replicate 5 0#8))).2 = .loadRefused := by
  decide

theorem test_second_load_refused :
    (((Session.start Config.reference).act (.load [0x10#8])).1.act (.load [0x00#8])).2 = .loadRefused := by decide

theorem test_step_reports_fault :
    ((Session.start Config.reference).acts [.load [0x01#8], .stepRequest]).engine.report =
      .failed (.illegalEncoding 0x01#8) 0#8 := by decide

theorem test_assemble_spec_scenario :
    assemble ["put r0, 5", "put r1, 2", "sub r0, r1", "halt"] =
      .ok [0xB0#8, 0x00#8, 0x05#8, 0xB0#8, 0x10#8, 0x02#8, 0x30#8, 0x01#8, 0x10#8] := by rfl

theorem test_assemble_spelling :
    assemble ["PUT r0, 5"] = .ok [0xB0#8, 0x00#8, 0x05#8] ∧ assemble ["put r0 5"] = .ok [0xB0#8, 0x00#8, 0x05#8] ∧
    assemble ["  halt ; stop here"] = .ok [0x10#8] ∧ assemble ["; only a comment"] = .ok [] := ⟨rfl, rfl, rfl, rfl⟩

theorem test_assemble_errors :
    assemble ["put r4, 1"] = .error .rangeError ∧ assemble ["put r0, 256"] = .error .rangeError ∧
    assemble ["put r0, 0x10"] = .error .syntaxError ∧ assemble ["put r0, r1"] = .error .shapeError ∧
    assemble ["add r0, 5"] = .error .shapeError ∧ assemble ["inc"] = .error .shapeError ∧
    assemble ["jmp .nowhere"] = .error .unresolvedLabel ∧ assemble [".a", ".a"] = .error .duplicateLabel ∧
    assemble ["foo r0"] = .error .syntaxError := ⟨rfl, rfl, rfl, rfl, rfl, rfl, rfl, rfl, rfl⟩

theorem test_assemble_labels :
    assemble [".top", "je .done", "jmp .top", ".done", "halt"] =
      .ok [0xE3#8, 0x04#8, 0xD1#8, 0x00#8, 0x10#8] := by rfl

theorem test_with_fetch_word : step (State.reset.withFetchWord 24 0xB03007) =
    exec (.put .r3 7#8) (State.reset.withFetchWord 24 0xB03007) := by rfl

/-- The placed instruction also runs from a state that is over and out of memory. -/
theorem test_with_fetch_word_anywhere :
    after ((from_ 200#8 { engine 127#8 0 0 0 41 .equal [] with run := .halted }).withFetchWord 16 0x6030) =
      snap 0 0 0 42 1 2 .running := by decide

/-! ### Witnesses: the hypotheses of each obligation can be met -/

theorem witness_StepKeepsInv : Inv State.reset ∧ step State.reset = .next State.reset.afterStep :=
  ⟨⟨Memory.empty_wf, Memory.empty_below _, rfl, fun _ _ h => nomatch h⟩, State.step_eq_afterStep _⟩

theorem witness_StepRunsDecodedInstruction :
    let s := eng 0 7 9 0 [0x20#8, 0x12#8]
    s.run = .running ∧ s.ip.toNat < s.memSize ∧
      decode (BitVec.ofNat 8 (byteAt s 0)) (BitVec.ofNat 8 (byteAt s 1)) (BitVec.ofNat 8 (byteAt s 2)) =
        .ok (.add .r1 .r2) := ⟨rfl, by decide, rfl⟩

theorem witness_OverEngineNeverChanges :
    (eng 0 0 0 0 [0x10#8]).afterStep.run ≠ .running ∧ (eng 0 0 0 0 [0x01#8]).afterStep.run ≠ .running := by decide

theorem witness_RunStateTransitions :
    (eng 0 0 0 0 [0x10#8]).run = .running ∧ (eng 0 0 0 0 [0x10#8]).afterStep.run = .halted ∧
    step (eng 0 0 0 0 [0x10#8]) = .next (eng 0 0 0 0 [0x10#8]).afterStep := ⟨rfl, by decide, State.step_eq_afterStep _⟩

theorem witness_FaultLeavesStateUnchanged :
    (eng 9 0 0 0 [0x50#8, 0x01#8]).run = .running ∧
    step (eng 9 0 0 0 [0x50#8, 0x01#8]) = .next (eng 9 0 0 0 [0x50#8, 0x01#8]).afterStep ∧
    (eng 9 0 0 0 [0x50#8, 0x01#8]).afterStep.run = .faulted .divideByZero 0#8 :=
  ⟨rfl, State.step_eq_afterStep _, by decide⟩

/-- Every arm of `expectedFault`, at the boundary values of its range. -/
theorem witness_FaultCausesAndPriority :
    expectedFault (from_ 128#8 (engine 127#8 0 0 0 0 .equal [])) = some (.fetchBounds 128#8) ∧
    expectedFault (from_ 127#8 (engine 127#8 0 0 0 0 .equal [])) = none ∧
    expectedFault (eng 0 0 0 0 [0x01#8]) = some (.illegalEncoding 0x01#8) ∧
    expectedFault (eng 0 0 0 0 [0x20#8, 0x44#8]) = some (.registerIndex 4#4) ∧
    expectedFault (eng 0 0 0 0 [0x20#8, 0x34#8]) = some (.registerIndex 4#4) ∧
    expectedFault (eng 0 0 0 0 [0x20#8, 0x33#8]) = none ∧
    expectedFault (eng 0 0 0 0 [0xD0#8, 0x31#8]) = some (.illegalEncoding 0x31#8) ∧
    expectedFault (eng 0 0 0 0 [0x50#8, 0x33#8]) = some .divideByZero ∧
    expectedFault (engine 127#8 0 128 0 0 .equal [0x80#8, 0x01#8]) = some (.dataBounds 128#8) ∧
    expectedFault (engine 127#8 128 0 0 0 .equal [0x90#8, 0x01#8]) = some (.dataBounds 128#8) ∧
    expectedFault (engine 127#8 127 0 0 0 .equal [0x90#8, 0x01#8]) = none := by decide

theorem witness_FullMemoryNeverOutOfBounds :
    (eng 0 0 0 0 [0x01#8]).memSize = 256 ∧ (eng 0 0 0 0 [0x01#8]).run = .running ∧
    step (eng 0 0 0 0 [0x01#8]) = .next (eng 0 0 0 0 [0x01#8]).afterStep ∧
    (eng 0 0 0 0 [0x01#8]).afterStep.run = .faulted (.illegalEncoding 0x01#8) 0#8 :=
  ⟨rfl, rfl, State.step_eq_afterStep _, by decide⟩

/-- A running engine inside memory and one whose `ip` is beyond it, as the format clauses ask for. -/
theorem witness_format_running :
    (eng 0 0 0 0 []).run = .running ∧ (eng 0 0 0 0 []).ip.toNat < (eng 0 0 0 0 []).memSize ∧
    (from_ 128#8 (engine 127#8 0 0 0 0 .equal [])).run = .running ∧
    (from_ 128#8 (engine 127#8 0 0 0 0 .equal [])).memSize ≤
      (from_ 128#8 (engine 127#8 0 0 0 0 .equal [])).ip.toNat := by decide

/-- The bytes the clauses of the formats ask for stand at `ip` of these engines, at both ends of each range. -/
theorem witness_format_bytes :
    ∀ fb ∈ [0x00, 0x10, 0x20, 0x30, 0x40, 0x50, 0x60, 0x70, 0x80, 0x90, 0xA0, 0xB0, 0xC0],
      byteAt (eng 0 0 0 0 [BitVec.ofNat 8 fb]) 0 = fb ∧
      byteAt (eng 0 0 0 0 [BitVec.ofNat 8 (fb + 1)]) 0 = fb + 1 ∧
      byteAt (eng 0 0 0 0 [BitVec.ofNat 8 (fb + 15)]) 0 = fb + 15 := by decide

theorem witness_format_register_bytes :
    ∀ fb ∈ pairFirstBytes ++ soloFirstBytes,
      byteAt (eng 0 0 0 0 [BitVec.ofNat 8 fb, 0x33#8]) 0 = fb ∧
      byteAt (eng 0 0 0 0 [BitVec.ofNat 8 fb, 0x33#8]) 1 = 16 * Reg.r3.index + Reg.r3.index ∧
      byteAt (eng 0 0 0 0 [BitVec.ofNat 8 fb, 0x30#8, 0xFF#8]) 1 = 16 * Reg.r3.index ∧
      byteAt (eng 0 0 0 0 [BitVec.ofNat 8 fb, 0x30#8, 0xFF#8]) 2 = (255#8).toNat ∧
      byteAt (eng 0 0 0 0 [BitVec.ofNat 8 fb, 0x40#8]) 1 / 16 = 4 ∧
      byteAt (eng 0 0 0 0 [BitVec.ofNat 8 fb, 0x34#8]) 1 / 16 < 4 ∧
      byteAt (eng 0 0 0 0 [BitVec.ofNat 8 fb, 0x34#8]) 1 % 16 = 4 ∧
      byteAt (eng 0 0 0 0 [BitVec.ofNat 8 fb, 0x31#8]) 1 % 16 = 1 := by decide

theorem witness_format_jump_immediate :
    ∀ fb ∈ immediateFirstBytes,
      byteAt (eng 0 0 0 0 [BitVec.ofNat 8 fb, 0xFF#8]) 0 = fb ∧
      byteAt (eng 0 0 0 0 [BitVec.ofNat 8 fb, 0xFF#8]) 1 = (255#8).toNat := by decide

theorem witness_JmpAlwaysJumps :
    byteAt (eng 0 0 0 0 [0xD2#8]) 0 = 0xD2 ∧ byteAt (eng 0 0 0 0 [0xDF#8]) 0 = 0xDF := by decide

theorem witness_NopOnlyMovesIp :
    (eng 0 0 0 0 []).run = .running ∧ (eng 0 0 0 0 []).ip.toNat < (eng 0 0 0 0 []).memSize ∧
      ∀ a, (eng 0 0 0 0 []).mem.read a = 0#8 := ⟨rfl, by decide, fun _ => rfl⟩

theorem witness_DecodeEncodeRoundTrip :
    (SrcInstr.mk .put [.reg 3, .value 255]).wellFormed = true ∧
    decodeBytes [0xB0#8, 0x30#8, 0xFF#8] = .ok (.put .r3 255#8) ∧
    (Instr.put .r3 255#8).length ≤ [0xB0#8, 0x30#8, 0xFF#8].length ∧
    [0xB0#8, 0x30#8, 0xFF#8].take 3 = encode (.put .r3 255#8) := ⟨rfl, rfl, by decide, rfl⟩

theorem witness_LegalFirstBytes :
    (0x00#8).toNat ∈ legalFirstBytes ∧ (0xF5#8).toNat ∈ legalFirstBytes ∧ (0xF6#8).toNat ∉ legalFirstBytes ∧
    (0xC0#8).toNat ∈ pairFirstBytes ∧ (0xF4#8).toNat ∈ soloFirstBytes ∧ (0xF5#8).toNat ∈ immediateFirstBytes ∧
    4 ≤ (0x40#8).toNat / 16 ∧ (0x34#8).toNat / 16 < 4 ∧ 4 ≤ (0x34#8).toNat % 16 ∧ (0x31#8).toNat % 16 ≠ 0 := by
  decide

theorem witness_LengthToldByFirstByte :
    decode 0x10#8 0#8 0#8 = .ok .halt ∧ decode 0xB0#8 0#8 0#8 = .ok (.put .r0 0#8) ∧
    decode 0x20#8 0#8 0#8 = .ok (.add .r0 .r0) ∧ decode 0xF5#8 0#8 0#8 = .ok (.jngI 0#8) := ⟨rfl, rfl, rfl, rfl⟩

theorem witness_FirstByteNamesOneForm :
    firstByte (.jlR .r0) / 16 = firstByte (.jlI 9#8) / 16 ∧ firstByte (.jlR .r0) % 16 / 2 = firstByte (.jlI 9#8) % 16 / 2 ∧
    firstByte (.jlR .r0) = firstByte (.jlR .r3) := by decide

theorem witness_division :
    ((eng 17 5 0 0 []).readReg .r1).toNat ≠ 0 ∧ ((eng 17 5 0 0 []).readReg .r2).toNat = 0 ∧
    exec (.div .r0 .r1) (eng 17 5 0 0 []) =
      .next { eng 17 5 0 0 [] with x := { x0 := 3, x1 := 2, x2 := 0, x3 := 0 }, ip := 2 } := ⟨by decide, by decide, rfl⟩

/-- The last address inside memory and the first beyond it, for `load` and `store`. -/
theorem witness_data_bounds :
    (engine 127#8 127 128 0 0 .equal []).mem.wf ∧
    ((engine 127#8 127 128 0 0 .equal []).readReg .r0).toNat < (engine 127#8 127 128 0 0 .equal []).memSize ∧
    (engine 127#8 127 128 0 0 .equal []).memSize ≤ ((engine 127#8 127 128 0 0 .equal []).readReg .r1).toNat := by decide

theorem witness_CmpOrdersUnsigned :
    ((eng 1 2 0 0 []).readReg .r0).toNat < ((eng 1 2 0 0 []).readReg .r1).toNat ∧
    ((eng 1 2 0 0 []).readReg .r2).toNat = ((eng 1 2 0 0 []).readReg .r3).toNat ∧
    ((eng 128 127 0 0 []).readReg .r1).toNat < ((eng 128 127 0 0 []).readReg .r0).toNat := by decide

/-- Each conditional jump is taken under some flag and not taken under another. -/
theorem witness_JumpEffect :
    (engine 255#8 0 0 0 0 .less []).flag = .less ∧ (engine 255#8 0 0 0 0 .equal []).flag = .equal ∧
    (engine 255#8 0 0 0 0 .greater []).flag = .greater := by decide

theorem witness_OnlyNamedRegistersChange :
    exec (.div .r2 .r3) (eng 9 9 17 5 []) =
      .next { eng 9 9 17 5 [] with x := { x0 := 3, x1 := 2, x2 := 17, x3 := 5 }, ip := 2 } ∧
    Reg.r2 ∉ writes (.div .r2 .r3) := ⟨rfl, by decide⟩

theorem witness_OnlyNamedRegistersAreRead :
    (eng 1 2 3 4 []).run = .running ∧
    ∀ r ∈ reads (.load .r0 .r1), (Regs.mk 9 2 8 7).get r = (eng 1 2 3 4 []).x.get r := by decide

theorem witness_OnlyCmpWritesFlag :
    exec .nop (eng 0 0 0 0 []) = .next { eng 0 0 0 0 [] with ip := 1 } ∧ (∀ a b, Instr.nop ≠ .cmp a b) ∧
    exec (.cmp .r0 .r1) (eng 1 2 0 0 []) = .next { eng 1 2 0 0 [] with flag := .less, ip := 2 } ∧
    isConditionalJump (.jmpI 0#8) = false := ⟨rfl, (fun _ _ h => nomatch h), rfl, rfl⟩

theorem witness_OnlyStoredByteChanges :
    exec (.store .r0 .r1) (eng 64 200 0 0 []) =
      .next { eng 64 200 0 0 [] with mem := { cells := [(64, 200#8)] }, ip := 2 } ∧
    storedAddress (.store .r0 .r1) (eng 64 200 0 0 []) = some 64#8 ∧
    exec .nop (eng 0 0 0 0 []) = .next { eng 0 0 0 0 [] with ip := 1 } ∧
    storedAddress .nop (eng 0 0 0 0 []) = none := ⟨rfl, rfl, rfl, rfl⟩

theorem witness_OnlyLoadSeesMemory : ∀ a b, Instr.store .r0 .r1 ≠ .load a b := fun _ _ h => nomatch h

theorem witness_IpAfterEachInstruction :
    exec (.jmpI 144#8) (engine 127#8 0 0 0 0 .equal []) = .next (from_ 144#8 (engine 127#8 0 0 0 0 .equal [])) ∧
    takenTarget (.jmpI 144#8) (engine 127#8 0 0 0 0 .equal []) = some 144#8 ∧
    takenTarget (.jlI 144#8) (engine 127#8 0 0 0 0 .equal []) = none ∧
    (engine 127#8 0 0 0 0 .equal [0xD1#8, 0x90#8]).ip.toNat < (engine 127#8 0 0 0 0 .equal [0xD1#8, 0x90#8]).memSize ∧
    (engine 127#8 0 0 0 0 .equal [0xD1#8, 0x90#8]).memSize ≤
      (engine 127#8 0 0 0 0 .equal [0xD1#8, 0x90#8]).afterStep.ip.toNat :=
  ⟨rfl, rfl, rfl, by decide, by decide⟩

theorem witness_StoreIsSeenByFetch :
    (eng 64 200 0 0 []).mem.wf ∧
    ((eng 64 200 0 0 []).effectiveAddress .r0).toNat < (eng 64 200 0 0 []).memSize ∧
    ((from_ 64#8 (eng 0 0 0 0 [])).ip.toNat + 0) % (from_ 64#8 (eng 0 0 0 0 [])).memSize =
      ((eng 64 200 0 0 []).effectiveAddress .r0).toNat := by decide

theorem witness_LoadAfterStoreGivesStoredByte :
    let s := eng 64 200 0 0 []
    let t := { s with mem := { cells := [(64, 200#8)] }, ip := 2 }
    s.mem.wf ∧ (s.readReg .r0).toNat < s.memSize ∧ exec (.store .r0 .r1) s = .next t ∧ t.readReg .r0 = s.readReg .r0 :=
  ⟨by decide, by decide, rfl, rfl⟩

theorem witness_CanonicalMemoriesAreEqual :
    (Memory.empty.write 3 5#8).wf ∧ ((Memory.empty.write 3 5#8).write 4 0#8).wf ∧
    ∀ a, (Memory.empty.write 3 5#8).read a = ((Memory.empty.write 3 5#8).write 4 0#8).read a :=
  ⟨by decide, by decide, fun _ => rfl⟩

theorem witness_LoadPlacesProgramAtZero :
    (List.replicate 4 0x10#8).length ≤ (Config.mk 3#8 .equal).memSize ∧
    (Session.start (Config.mk 3#8 .equal)).engine.memSize < (List.replicate 5 0x10#8).length ∧
    ((Session.start (Config.mk 3#8 .equal)).act (.load [])).1.phase ≠ .fresh := by decide

theorem witness_StepReplyFollowsRunState :
    ((Session.start Config.reference).acts [.load [0x10#8], .stepRequest]).engine.run = .halted ∧
    ((Session.start Config.reference).acts [.load [0x01#8], .stepRequest]).engine.run =
      .faulted (.illegalEncoding 0x01#8) 0#8 ∧
    ((Session.start Config.reference).acts [.stepRequest]).engine.run = .running := by decide

/-- The session invariant holds at a reset, and so the step clause has a session to start from. -/
theorem witness_HostActionsKeepInv : SessionInv (Session.start Config.reference) :=
  ⟨⟨Memory.empty_wf, Memory.empty_below _, rfl, fun _ _ h => nomatch h⟩, fun _ => rfl⟩

/-- A reset may bring another MEM_SIZE (log entry 15). -/
theorem test_reset_takes_arguments :
    ((Session.start Config.reference).acts [.stepRequest, .reset ⟨7#8, .less⟩]).engine.memSize = 8 := by decide

/-- The last label value that fits and the first that does not, the reference standing before or after. -/
theorem witness_LabelsResolveToByteOffsets :
    labelName ['.', 'l'] = some ['l'] ∧
    sizeOfItems (List.replicate 85 (.plain (.put .r0 0#8))) = 255 ∧
    sizeOfItems (.refers (.put .r3) :: List.replicate 84 (.plain (.put .r0 0#8))) = 255 ∧
    sizeOfItems (.plain .nop :: List.replicate 85 (.plain (.put .r0 0#8))) = 256 ∧
    sizeOfItems (.refers .jng :: .refers .jl :: List.replicate 84 (.plain (.put .r0 0#8))) = 256 ∧
    SourceItem.refers .jng ∈ .refers .jng :: .refers .jl :: List.replicate 84 (.plain (.put .r0 0#8)) := by
  decide

/-- Two programs of that statement, as text and bytes. -/
theorem test_label_programs :
    labelProgram ['l'] [.plain .nop] [.refers .jl, .refers (.put .r2)] =
      ["nop".toList, ".l".toList, "jl .l".toList, "put r2 .l".toList] ∧
    assembleChars (labelProgram ['l'] [.plain .nop] [.refers .jl, .refers (.put .r2)]) =
      .ok [0x00#8, 0xE1#8, 0x01#8, 0xB0#8, 0x20#8, 0x01#8] ∧
    assembleChars (labelProgram ['l'] [.refers (.put .r0)] []) = .ok [0xB0#8, 0x00#8, 0x03#8] := ⟨rfl, rfl, rfl⟩

end Sys2Proof.Tests
end

section
/-! The scope family: reset, totality of runs, and the absence of bounds faults with full memory. -/

namespace Sys2Proof.Machine

@[simp] theorem State.readReg_resetWith (c : Config) (r : Reg) : (State.resetWith c).readReg r = 0#8 := by
  cases r <;> rfl

/-- A jump, taken or not, leaves `run` alone (R111). -/
theorem jump_run {c : Condition} {target : Target} {s t : State} (h : jump c target s = .next t) :
    t.run = s.run := by
  rw [jump_eq] at h
  cases h
  split
  · rfl
  · rfl

/-- What a meaning can do to `run`: only `halt` halts, and only `div` and the data accesses raise, the latter for an
address beyond memory (R15, R130). -/
theorem exec_run_cases {i : Instr} {s t : State} (h : exec i s = .next t) :
    t.run = s.run ∨ (i = .halt ∧ t.run = .halted) ∨ t = s.raise .divideByZero ∨
      ∃ addr : Byte, s.memSize ≤ addr.toNat ∧ t = s.raise (.dataBounds addr) := by
  cases i with
  | div a b =>
    cases (execDiv_eq a b s).symm.trans h
    split
    · exact .inr (.inr (.inl rfl))
    · exact .inl rfl
  | load a b =>
    cases (execLoad_eq a b s).symm.trans h
    split
    case isTrue hle => exact .inr (.inr (.inr ⟨_, hle, rfl⟩))
    case isFalse => exact .inl rfl
  | store a b =>
    cases (execStore_eq a b s).symm.trans h
    split
    case isTrue hle => exact .inr (.inr (.inr ⟨_, hle, rfl⟩))
    case isFalse => exact .inl rfl
  | halt => cases h; exact .inr (.inl ⟨rfl, rfl⟩)
  | nop | add | sub | mul | inc | dec | mov | put | cmp => cases h; exact .inl rfl
  | jmpR a => exact .inl (jump_run (c := .always) (target := .inRegister a) h)
  | jmpI v => exact .inl (jump_run (c := .always) (target := .immediate v) h)
  | jlR | jlI | jeR | jeI | jgR | jgI | jnlR | jnlI | jneR | jneI | jngR | jngI =>
    exact .inl (jump_run h)

/-- The fault a step of a running engine records is a fetch beyond memory, a rejection of the decoder, a division by
zero, or a data access beyond memory (R130). -/
theorem step_fault_cases {s t : State} {cause : Fault} {origin : Byte} (hr : s.run = .running)
    (h : step s = .next t) (hf : t.run = .faulted cause origin) :
    (s.memSize ≤ s.ip.toNat ∧ cause = .fetchBounds s.ip) ∨ (∃ e, cause = Fault.ofDecode e) ∨
      cause = .divideByZero ∨ ∃ addr : Byte, s.memSize ≤ addr.toNat ∧ cause = .dataBounds addr := by
  rcases step_cases s with ⟨hover, -⟩ | ⟨-, f, hfetch, hs⟩ | ⟨-, i, -, hs⟩
  · exact absurd hr hover
  · cases hs.symm.trans h
    cases hf
    rcases State.fetchDecode_error_inv hfetch with hbounds | ⟨-, e, -, hcause⟩
    · exact .inl hbounds
    · exact .inr (.inl ⟨e, hcause⟩)
  · rcases exec_run_cases (hs.symm.trans h) with hsame | ⟨-, hhalt⟩ | rfl | ⟨addr, hle, rfl⟩
    · cases hr.symm.trans (hsame.symm.trans hf)
    · cases hhalt.symm.trans hf
    · cases hf
      exact .inr (.inr (.inl rfl))
    · cases hf
      exact .inr (.inr (.inr ⟨addr, hle, rfl⟩))

/-- With `MEM_SIZE = 256` every byte is an address inside memory (R4). -/
theorem State.toNat_lt_memSize_of_full {s : State} (h : s.memSize = 256) (addr : Byte) :
    addr.toNat < s.memSize :=
  h ▸ addr.isLt

end Sys2Proof.Machine

open Sys2Proof Sys2Proof.Machine

/-- Settles O5, by induction on the number of steps: every step has a next state under the same model arguments. -/
theorem everyRunHasNextState : Obligations.EveryRunHasNextState := by
  intro n
  induction n with
  | zero => exact fun s => ⟨s, run_zero s, rfl⟩
  | succ n ih =>
    intro s
    obtain ⟨u, hu, hcu⟩ := step_next s
    obtain ⟨t, ht, hct⟩ := ih u
    exact ⟨t, (run_succ n hu).trans ht, hct.trans hcu⟩

/-- Settles O10: a bounds fault needs an address beyond memory, and with `MEM_SIZE = 256` there is none. -/
theorem fullMemoryNeverOutOfBounds : Obligations.FullMemoryNeverOutOfBounds := by
  intro s t cause origin hfull hr h hf
  have hinside := State.toNat_lt_memSize_of_full hfull
  rcases step_fault_cases hr h hf with ⟨hle, -⟩ | ⟨e, rfl⟩ | rfl | ⟨addr, hle, -⟩
  · exact absurd hle (Nat.not_le.mpr (hinside s.ip))
  · cases e with
    | illegalEncoding b => exact ⟨nofun, nofun⟩
    | registerIndex n => exact ⟨nofun, nofun⟩
  · exact ⟨nofun, nofun⟩
  · exact absurd hle (Nat.not_le.mpr (hinside addr))

/-- Settles O1, field by field; the host's reset ignores the session it ends. -/
theorem resetLeavesSpecValues : Obligations.ResetLeavesSpecValues := by
  intro c
  refine ⟨State.readReg_resetWith c, State.resetWith_ip c, State.resetWith_flag c, State.resetWith_run c, ?_, ?_, ?_⟩
  · exact fun a => (congrArg (Memory.read · a) (State.resetWith_mem c)).trans (Memory.read_empty a)
  · exact congrArg Config.memSize (State.resetWith_cfg c)
  · exact fun h => ⟨rfl, rfl⟩

end

section
/-! The state family: the invariant, the run state, the frames of registers, flag and `ip`, and canonical memory. -/

namespace Sys2Proof

open Machine

/-! ### The invariant -/

/-- What R57 and R58 say of the byte or field a rejection names, as `faultInfoOk` asks it of a recorded fault. -/
def DecodeError.InfoOk : DecodeError → Prop
  | .illegalEncoding b => loNibble b ≠ 0
  | .registerIndex n => 4 ≤ n.toNat

/-- Only a field of 4 to 15 is rejected (R58). -/
theorem regOfNibble_error {n : Nibble} {e : DecodeError} (h : regOfNibble n = .error e) :
    e = .registerIndex n ∧ 4 ≤ n.toNat := by
  rcases regOfNibble_cases n with ⟨-, a, ha, -⟩ | ⟨hn, hn'⟩
  · cases ha.symm.trans h
  · cases hn'.symm.trans h
    exact ⟨rfl, hn⟩

theorem decodeRR_error_infoOk {mk : Reg → Reg → Instr} {b1 : Byte} {e : DecodeError}
    (h : decodeRR mk b1 = .error e) : e.InfoOk := by
  unfold decodeRR at h
  split at h
  case h_1 hhi =>
    obtain ⟨he, hn⟩ := regOfNibble_error hhi
    cases h
    exact he ▸ hn
  case h_2 =>
    split at h
    case h_1 hlo =>
      obtain ⟨he, hn⟩ := regOfNibble_error hlo
      cases h
      exact he ▸ hn
    case h_2 => cases h

theorem decodeR_error_infoOk {mk : Reg → Instr} {b1 : Byte} {e : DecodeError}
    (h : decodeR mk b1 = .error e) : e.InfoOk := by
  unfold decodeR at h
  split at h
  case h_1 hhi =>
    obtain ⟨he, hn⟩ := regOfNibble_error hhi
    cases h
    exact he ▸ hn
  case h_2 =>
    split at h
    case isTrue => cases h
    case isFalse hlo =>
      cases h
      exact hlo

/-- A byte whose low nibble is 0 is a multiple of 16 (R5). -/
theorem toNat_mod_of_loNibble_eq_zero {b : Byte} (h : loNibble b = 0) : b.toNat % 16 = 0 := by
  have := congrArg BitVec.toNat h
  simpa [loNibble] using this

/-- The decoder rejects a byte or a field for a reason: every first byte with low nibble 0 is legal, an unused nibble is
rejected when it is not 0, and a register field when it is 4 to 15 (R57, R58). -/
theorem decode_error_infoOk {b0 b1 b2 : Byte} {e : DecodeError} (h : decode b0 b1 b2 = .error e) : e.InfoOk := by
  unfold decode at h
  split at h
  case h_28 =>
    cases h
    intro hlo
    have := toNat_mod_of_loNibble_eq_zero hlo
    have := b0.isLt
    simp only [imp_false] at *
    omega
  -- The 27 legal first bytes: two registers, one register, or nothing to reject.
  all_goals first
    | exact decodeRR_error_infoOk h
    | exact decodeR_error_infoOk h
    | cases h

namespace Machine

/-- A fault of the fetch or the decoder carries the info R130 gives it. -/
theorem faultInfoOk_raise_of_fetchDecode {s : State} {f : Fault} (h : s.fetchDecode = .error f) :
    faultInfoOk (s.raise f) = true := by
  rcases State.fetchDecode_error_inv h with ⟨hle, rfl⟩ | ⟨-, e, he, rfl⟩
  · simp [faultInfoOk, hle]
  · have hinfo := decode_error_infoOk he
    cases e with
    | illegalEncoding b => simpa [faultInfoOk, Fault.ofDecode, DecodeError.InfoOk] using hinfo
    | registerIndex n => simpa [faultInfoOk, Fault.ofDecode, DecodeError.InfoOk] using hinfo

/-- What a step of a running engine can leave in `run`: Running, Halted, which is the work of a fetched `halt`, or a
raise, which carries the info R130 gives it (R15, R131). -/
theorem step_run_cases {s t : State} (hr : s.run = .running) (h : step s = .next t) :
    t.run = .running ∨ (s.fetchDecode = .ok .halt ∧ t.run = .halted) ∨
      ∃ f, t = s.raise f ∧ faultInfoOk (s.raise f) = true := by
  rcases step_cases s with ⟨hover, -⟩ | ⟨-, f, hfetch, hs⟩ | ⟨-, i, hfetch, hs⟩
  · exact absurd hr hover
  · cases hs.symm.trans h
    exact .inr (.inr ⟨f, rfl, faultInfoOk_raise_of_fetchDecode hfetch⟩)
  · rcases exec_run_cases (hs.symm.trans h) with hsame | ⟨rfl, hhalt⟩ | rfl | ⟨addr, hle, rfl⟩
    · exact .inl (hsame.trans hr)
    · exact .inr (.inl ⟨hfetch, hhalt⟩)
    · exact .inr (.inr ⟨_, rfl, by simp [faultInfoOk]⟩)
    · exact .inr (.inr ⟨_, rfl, by simp [faultInfoOk, hle]⟩)

/-- A step keeps memory canonical and below `MEM_SIZE`: it leaves memory, or writes one cell inside it (R16, R30). -/
theorem step_keeps_memory {s t : State} (hwf : s.mem.wf) (hbelow : s.mem.below s.memSize) (h : step s = .next t) :
    t.mem.wf ∧ t.mem.below t.memSize := by
  rcases step_cases s with ⟨-, hs⟩ | ⟨-, f, -, hs⟩ | ⟨-, i, -, hs⟩
  · cases hs.symm.trans h
    exact ⟨hwf, hbelow⟩
  · cases hs.symm.trans h
    exact ⟨hwf, hbelow⟩
  · obtain ⟨hcfg, heffect⟩ := effect_of_exec (hs.symm.trans h)
    have hsize : t.memSize = s.memSize := congrArg Config.memSize hcfg
    rw [hsize]
    cases heffect with
    | raised f same => exact same ▸ ⟨hwf, hbelow⟩
    | plain mem => exact mem ▸ ⟨hwf, hbelow⟩
    | halts _ mem => exact mem ▸ ⟨hwf, hbelow⟩
    | stored a b _ inside mem => exact mem ▸ ⟨Memory.write_wf hwf _ _, Memory.write_below hbelow inside _⟩

/-- Memory is all the invariant asks of an engine that has not faulted. -/
theorem inv_of_not_faulted {s : State} (hwf : s.mem.wf) (hbelow : s.mem.below s.memSize)
    (hr : s.run = .running ∨ s.run = .halted) : Inv s where
  canonical := hwf
  inMemory := hbelow
  info := by rcases hr with hr | hr <;> simp [faultInfoOk, hr]
  repeats cause origin hf := by rcases hr with hr | hr <;> cases hr.symm.trans hf

/-- The raise of a running engine repeats: with `run` set back it is the engine that raised (R131). -/
theorem faultRepeats_raise {s : State} {f : Fault} (hr : s.run = .running) (h : step s = .next (s.raise f)) :
    faultRepeats (s.raise f) := by
  intro cause origin _
  have hback : { s.raise f with run := .running } = s := by
    cases s
    cases hr
    rfl
  rw [hback]
  exact h

end Machine

end Sys2Proof

namespace Sys2Proof.Machine

open Vocabulary

/-! ### Canonical memory -/

/-- A cell is listed in canonical cells exactly when its address reads as its byte and that is not what an unlisted
address reads as. -/
theorem Memory.mem_iff_lookup {l : List Host.Cell} (hrise : l.Pairwise (fun p q => p.1 < q.1))
    (hlisted : ∀ c ∈ l, c.2 ≠ Memory.unlisted) (a : Nat) (v : Byte) :
    (a, v) ∈ l ↔ Memory.lookup l a = v ∧ v ≠ Memory.unlisted := by
  induction l with
  | nil =>
    have hnot : ¬ (Memory.unlisted = v ∧ v ≠ Memory.unlisted) := fun hv => hv.2 hv.1.symm
    simpa [Memory.lookup] using hnot
  | cons c t ih =>
    obtain ⟨k, w⟩ := c
    obtain ⟨habove, hrise⟩ := List.pairwise_cons.mp hrise
    obtain ⟨hw, hlisted⟩ := List.forall_mem_cons.mp hlisted
    by_cases hk : k = a
    · subst hk
      have hnot : (k, v) ∉ t := fun hmem => Nat.lt_irrefl k (habove _ hmem)
      have hcell : v = w ↔ w = v ∧ v ≠ Memory.unlisted := ⟨fun hv => ⟨hv.symm, hv ▸ hw⟩, fun hv => hv.1.symm⟩
      simpa [Memory.lookup, hnot] using hcell
    · simp [Memory.lookup, hk, Ne.symm hk, ih hrise hlisted]

/-- Canonical memories list the same cells when they read alike, and in the same order, as both rise. -/
theorem Memory.eq_of_read_eq {m n : Memory} (hm : m.wf) (hn : n.wf) (h : ∀ a, m.read a = n.read a) : m = n := by
  have hnodup {l : List Host.Cell} (hl : l.Pairwise (fun p q => p.1 < q.1)) : l.Nodup :=
    hl.imp fun hlt heq => Nat.ne_of_lt hlt (congrArg Prod.fst heq)
  have hsame (c : Host.Cell) : c ∈ m.cells ↔ c ∈ n.cells := by
    rw [Memory.mem_iff_lookup hm.1 hm.2, Memory.mem_iff_lookup hn.1 hn.2, ← Memory.read, h c.1, Memory.read]
  have hcells : m.cells = n.cells :=
    ((List.perm_ext_iff_of_nodup (hnodup hm.1) (hnodup hn.1)).mpr hsame).eq_of_pairwise
      (fun _ _ _ _ hab hba => absurd hba (Nat.lt_asymm hab)) hm.1 hn.1
  exact congrArg Memory.mk hcells

/-! ### The step, and an engine that is over -/

/-- The three bytes the statements number are the step's own (R12). -/
theorem ofNat_byteAt (s : State) (k : Nat) : BitVec.ofNat 8 (byteAt s k) = s.codeByte k :=
  BitVec.ofNat_toNat ..

theorem run_of_over {s : State} (h : Over s) (n : Nat) : core.run n s = .next s := by
  induction n with
  | zero => exact run_zero s
  | succ n ih => exact (run_succ n (step_of_over h)).trans ih

theorem State.afterStep_of_over {s : State} (h : Over s) : s.afterStep = s :=
  (Host.Outcome.next.inj ((step_of_over h).symm.trans s.step_eq_afterStep)).symm

/-! ### A meaning as a raise or a completion -/

/-- The fault a meaning raises, if any: a zero divisor, or a data address beyond memory (R94, R100, R101). -/
def execFault (i : Instr) (s : State) : Option Fault :=
  match i with
  | .div _ b => if (s.readReg b).toNat = 0 then some .divideByZero else none
  | .load _ b => if s.memSize ≤ (s.readReg b).toNat then some (.dataBounds (s.readReg b)) else none
  | .store a _ => if s.memSize ≤ (s.readReg a).toNat then some (.dataBounds (s.readReg a)) else none
  | _ => none

/-- The state with an instruction's writes made, but for `ip`, where it raises nothing. -/
def execWrites (i : Instr) (s : State) : State :=
  match i with
  | .halt => { s with run := .halted }
  | .add a b => s.writeReg a (trunc8 ((s.readReg a).toNat + (s.readReg b).toNat))
  | .sub a b => s.writeReg a (trunc8 ((s.readReg a).toNat - (s.readReg b).toNat))
  | .mul a b => s.writeReg a (trunc8 ((s.readReg a).toNat * (s.readReg b).toNat))
  | .div a b => (s.writeReg .r0 (BitVec.ofNat 8 ((s.readReg a).toNat / (s.readReg b).toNat))).writeReg .r1
      (BitVec.ofNat 8 ((s.readReg a).toNat % (s.readReg b).toNat))
  | .inc a => s.writeReg a (trunc8 ((s.readReg a).toNat + 1))
  | .dec a => s.writeReg a (trunc8 ((s.readReg a).toNat - 1))
  | .load a b => s.writeReg a (s.mem.read (s.readReg b).toNat)
  | .store a b => { s with mem := s.mem.write (s.readReg a).toNat (s.readReg b) }
  | .mov a b => s.writeReg a (s.readReg b)
  | .put a v => s.writeReg a v
  | .cmp a b => { s with flag := ord (s.readReg a) (s.readReg b) }
  | _ => s

/-- Where an instruction that raises nothing leaves `ip`: at a taken jump's target, else past its own bytes (R13). -/
def nextIp (i : Instr) (s : State) : Byte := (takenTarget i s).getD (s.ipPlus i.length)

/-- The state an instruction that raises nothing leaves. -/
def execDone (i : Instr) (s : State) : State := { execWrites i s with ip := nextIp i s }

/-- Every meaning either raises its fault or completes (R60, R131). -/
theorem exec_eq_raise_or_done (i : Instr) (s : State) :
    exec i s = .next ((execFault i s).elim (execDone i s) s.raise) := by
  rw [exec_eq]
  cases i with
  | div | load | store =>
    simp only [execFault]
    split <;> rfl
  | jlR | jlI | jeR | jeI | jgR | jgI | jnlR | jnlI | jneR | jneI | jngR | jngI =>
    simp only [execDone, execWrites, nextIp, takenTarget]
    split <;> rfl
  | _ => rfl

theorem exec_eq_raise {i : Instr} {s : State} {f : Fault} (h : execFault i s = some f) :
    exec i s = .next (s.raise f) := by
  rw [exec_eq_raise_or_done, h, Option.elim_some]

theorem exec_eq_done {i : Instr} {s : State} (h : execFault i s = none) : exec i s = .next (execDone i s) := by
  rw [exec_eq_raise_or_done, h, Option.elim_none]

/-- A meaning that answers `t` has raised its fault or completed. -/
theorem exec_raise_or_done {i : Instr} {s t : State} (h : exec i s = .next t) :
    (∃ f, execFault i s = some f ∧ t = s.raise f) ∨ (execFault i s = none ∧ t = execDone i s) := by
  cases hf : execFault i s with
  | some f => exact .inl ⟨f, rfl, Host.Outcome.next.inj (h.symm.trans (exec_eq_raise hf))⟩
  | none => exact .inr ⟨rfl, Host.Outcome.next.inj (h.symm.trans (exec_eq_done hf))⟩

/-- An instruction that finds the same fault, or none, in two states raises it in both, or completes in both. -/
theorem exec_pair {i : Instr} {s u : State} (hf : execFault i u = execFault i s) :
    (∃ f, exec i s = .next (s.raise f) ∧ exec i u = .next (u.raise f)) ∨
      (exec i s = .next (execDone i s) ∧ exec i u = .next (execDone i u)) := by
  cases hs : execFault i s with
  | some f => exact .inl ⟨f, exec_eq_raise hs, exec_eq_raise (hf.trans hs)⟩
  | none => exact .inr ⟨exec_eq_done hs, exec_eq_done (hf.trans hs)⟩

/-! ### What the writes leave alone, and where `ip` goes -/

theorem execWrites_readReg_of_not_mem {i : Instr} {r : Reg} (s : State) (h : r ∉ writes i) :
    (execWrites i s).readReg r = s.readReg r := by
  cases i with
  | add | sub | mul | div | inc | dec | load | mov | put =>
    simp only [writes, List.mem_cons, List.not_mem_nil, or_false, not_or] at h
    simp [execWrites, State.readReg_writeReg, h]
  | _ => rfl

theorem execWrites_flag {i : Instr} (s : State) (h : ∀ a b, i ≠ .cmp a b) : (execWrites i s).flag = s.flag := by
  cases i with
  | cmp a b => exact absurd rfl (h a b)
  | _ => rfl

theorem nextIp_of_taken {i : Instr} {s : State} {v : Byte} (h : takenTarget i s = some v) : nextIp i s = v := by
  rw [nextIp, h, Option.getD_some]

theorem nextIp_of_not_taken {i : Instr} {s : State} (h : takenTarget i s = none) :
    nextIp i s = s.ipPlus i.length := by
  rw [nextIp, h, Option.getD_none]

/-- A taken jump writes nothing but `ip` (R111). -/
theorem execDone_of_taken {i : Instr} {s : State} {v : Byte} (h : takenTarget i s = some v) :
    execDone i s = { s with ip := v } := by
  have hwrites : execWrites i s = s := by
    cases i with
    | nop | halt | add | sub | mul | div | inc | dec | load | store | mov | put | cmp => cases h
    | _ => rfl
  rw [execDone, hwrites, nextIp_of_taken h]

/-! ### What an instruction cannot see

`run`; the flag, unless it is a conditional jump; the registers it does not read. -/

theorem execFault_withRun (i : Instr) (s : State) (r : Run) : execFault i { s with run := r } = execFault i s := by
  cases i <;> rfl

theorem execDone_withRun (i : Instr) (s : State) (r : Run) :
    (execDone i { s with run := r }).x = (execDone i s).x ∧ (execDone i { s with run := r }).ip = (execDone i s).ip ∧
      (execDone i { s with run := r }).flag = (execDone i s).flag ∧
      (execDone i { s with run := r }).mem = (execDone i s).mem := by
  cases i <;> exact ⟨rfl, rfl, rfl, rfl⟩

theorem execFault_withFlag (i : Instr) (s : State) (f : Flag) : execFault i { s with flag := f } = execFault i s := by
  cases i <;> rfl

theorem execDone_withFlag {i : Instr} (s : State) (f : Flag) (h : isConditionalJump i = false) :
    (execDone i { s with flag := f }).x = (execDone i s).x ∧
      (execDone i { s with flag := f }).ip = (execDone i s).ip ∧
      (execDone i { s with flag := f }).run = (execDone i s).run ∧
      (execDone i { s with flag := f }).mem = (execDone i s).mem := by
  cases i with
  | jlR | jlI | jeR | jeI | jgR | jgI | jnlR | jnlI | jneR | jneI | jngR | jngI => cases h
  | _ => exact ⟨rfl, rfl, rfl, rfl⟩

@[simp] theorem State.readReg_withRegs (s : State) (y : Regs) (r : Reg) :
    ({ s with x := y } : State).readReg r = y.get r := rfl

@[simp] theorem State.memSize_withRegs (s : State) (y : Regs) : ({ s with x := y } : State).memSize = s.memSize := rfl

@[simp] theorem State.ipPlus_withRegs (s : State) (y : Regs) (n : Nat) :
    ({ s with x := y } : State).ipPlus n = s.ipPlus n := rfl

section
variable {i : Instr} {s : State} {y : Regs} (hread : ∀ r ∈ reads i, y.get r = s.readReg r)
include hread

theorem execFault_withRegs : execFault i { s with x := y } = execFault i s := by
  cases i with
  | div a b | load a b => simp [execFault, hread b (by simp [reads])]
  | store a b => simp [execFault, hread a (by simp [reads])]
  | _ => rfl

theorem nextIp_withRegs : nextIp i { s with x := y } = nextIp i s := by
  cases i with
  | jmpR a | jlR a | jeR a | jgR a | jnlR a | jneR a | jngR a =>
    simp [nextIp, takenTarget, Instr.length, hread a (by simp [reads])]
  | _ => rfl

theorem execWrites_withRegs :
    (execWrites i { s with x := y }).flag = (execWrites i s).flag ∧
      (execWrites i { s with x := y }).run = (execWrites i s).run ∧
      (execWrites i { s with x := y }).mem = (execWrites i s).mem ∧
      ∀ r ∈ writes i, (execWrites i { s with x := y }).readReg r = (execWrites i s).readReg r := by
  cases i with
  | add | sub | mul | div | inc | dec | load | store | mov | put | cmp =>
    simp only [reads, List.forall_mem_cons] at hread
    simp [execWrites, writes, State.readReg_writeReg, hread]
  | _ => exact ⟨rfl, rfl, rfl, nofun⟩

end

/-- A step that takes `ip` out of memory is a taken jump, which changes `ip` only: a raise keeps `ip`, and any other
completion leaves it inside memory (R13). -/
theorem step_leaves_memory {s t : State} (hr : s.run = .running) (hin : s.ip.toNat < s.memSize)
    (h : step s = .next t) (hout : s.memSize ≤ t.ip.toNat) :
    ∃ i v, s.fetchDecode = .ok i ∧ takenTarget i s = some v ∧ t = { s with ip := v } := by
  have hmoved {u : State} (hu : u.ip.toNat < s.memSize) : t ≠ u := fun htu => absurd hout (Nat.not_le.mpr (htu ▸ hu))
  rcases step_cases s with ⟨hover, -⟩ | ⟨-, f, -, hs⟩ | ⟨-, i, hfetch, hs⟩
  · exact absurd hr hover
  · exact absurd (Host.Outcome.next.inj (h.symm.trans hs)) (hmoved hin)
  · rcases exec_raise_or_done (hs.symm.trans h) with ⟨f, -, ht⟩ | ⟨-, ht⟩
    · exact absurd ht (hmoved hin)
    · cases htaken : takenTarget i s with
      | none =>
        have hinside : (execDone i s).ip.toNat < s.memSize := by
          rw [execDone, nextIp_of_not_taken htaken]
          exact s.ipPlus_lt i.length
        exact absurd ht (hmoved hinside)
      | some v => exact ⟨i, v, hfetch, htaken, by rw [ht, execDone_of_taken htaken]⟩

end Sys2Proof.Machine

open Sys2Proof Sys2Proof.Machine Sys2Proof.Vocabulary

/-- Settles O3: a step keeps memory well formed, and what it leaves in `run` is no fault or a genuine raise. -/
theorem stepKeepsInv : Obligations.StepKeepsInv := by
  intro s t hinv h
  by_cases hr : s.run = .running
  · obtain ⟨hwf, hbelow⟩ := step_keeps_memory hinv.canonical hinv.inMemory h
    rcases step_run_cases hr h with hrun | ⟨-, hhalt⟩ | ⟨f, rfl, hinfo⟩
    · exact inv_of_not_faulted hwf hbelow (.inl hrun)
    · exact inv_of_not_faulted hwf hbelow (.inr hhalt)
    · exact ⟨hwf, hbelow, hinfo, faultRepeats_raise hr h⟩
  · cases (step_of_over hr).symm.trans h
    exact hinv

/-- Settles O2: memory is empty at reset, and the engine runs. -/
theorem invHoldsAtReset : Obligations.InvHoldsAtReset := by
  have hreset (c : Config) : Inv (State.resetWith c) :=
    inv_of_not_faulted Memory.empty_wf (Memory.empty_below _) (.inl (State.resetWith_run c))
  exact ⟨hreset, hreset Config.reference⟩

/-- Settles O6, by induction on the number of steps. -/
theorem overEngineNeverChanges : Obligations.OverEngineNeverChanges := by
  intro n s hover
  have hsame := State.afterStep_of_over hover
  exact ⟨run_of_over hover n, hsame, congrArg State.report hsame⟩

/-- Settles O7: a running step's outcomes are those of `step_run_cases`, and `run` is among what no meaning sees. -/
theorem runStateTransitions : Obligations.RunStateTransitions := by
  refine ⟨State.resetWith_run, fun s hover => ?_, fun s t hr h => ⟨⟨fun hhalt => ?_, fun hfetch => ?_⟩, ?_⟩,
    fun i s r => ?_⟩
  · exact ⟨step_of_over hover, congrArg State.report (State.afterStep_of_over hover)⟩
  · rcases step_run_cases hr h with hrun | ⟨hfetch, -⟩ | ⟨f, rfl, -⟩
    · cases hrun.symm.trans hhalt
    · exact hfetch
    · cases hhalt
  · cases (step_of_ok hr hfetch).symm.trans h
    rfl
  · rcases step_run_cases hr h with hrun | ⟨-, hhalt⟩ | ⟨f, hraise, -⟩
    · exact .inl hrun
    · exact .inr (.inl hhalt)
    · exact .inr (.inr ⟨f, hraise⟩)
  · rcases exec_pair (execFault_withRun i s r) with ⟨f, hs, hu⟩ | ⟨hs, hu⟩
    · exact ⟨_, _, hs, hu, rfl, rfl, rfl, rfl⟩
    · exact ⟨_, _, hs, hu, execDone_withRun i s r⟩

/-- Settles O40: a raise keeps every register, and the writes reach the named ones only. -/
theorem onlyNamedRegistersChange : Obligations.OnlyNamedRegistersChange := by
  intro i s t r h hr
  rcases exec_raise_or_done h with ⟨f, -, rfl⟩ | ⟨-, rfl⟩
  · rfl
  · exact execWrites_readReg_of_not_mem s hr

/-- Settles O41: what an instruction raises, where it goes and what it writes depend on the registers it reads only. -/
theorem onlyNamedRegistersAreRead : Obligations.OnlyNamedRegistersAreRead := by
  intro i s y hr hread
  rcases exec_pair (execFault_withRegs hread) with ⟨f, hs, hu⟩ | ⟨hs, hu⟩
  · refine ⟨_, _, hs, hu, rfl, rfl, rfl, rfl, fun hrun => ?_, fun r _ => rfl⟩
    rcases hrun with hrun | hrun
    · cases hrun.trans hr
    · cases hrun
  · obtain ⟨hflag, hrun, hmem, hregs⟩ := execWrites_withRegs hread
    exact ⟨_, _, hs, hu, hflag, nextIp_withRegs hread, hrun, hmem, fun _ => hregs,
      fun r hnot => execWrites_readReg_of_not_mem _ hnot⟩

/-- Settles O42: a raise keeps the flag, and of the writes only `cmp`'s reach it. -/
theorem onlyCmpWritesFlag : Obligations.OnlyCmpWritesFlag := by
  refine ⟨fun i s t h hcmp => ?_, fun a b s t h => ?_, fun i s f hjump => ?_, State.resetWith_flag, rfl, rfl, rfl⟩
  · rcases exec_raise_or_done h with ⟨f, -, rfl⟩ | ⟨-, rfl⟩
    · rfl
    · exact execWrites_flag s hcmp
  · cases (exec_eq_done rfl).symm.trans h
    rfl
  · rcases exec_pair (execFault_withFlag i s f) with ⟨e, hs, hu⟩ | ⟨hs, hu⟩
    · exact ⟨_, _, hs, hu, rfl, rfl, rfl, rfl⟩
    · exact ⟨_, _, hs, hu, execDone_withFlag s f hjump⟩

/-- Settles O45: `nextIp` is the clause on completion, and `step_leaves_memory` the one on leaving memory. -/
theorem ipAfterEachInstruction : Obligations.IpAfterEachInstruction := by
  refine ⟨fun i s t hr h hrun => ?_, fun s t f origin hr h hf => ?_, fun s t hr hin h hout => ?_⟩
  · rcases exec_raise_or_done h with ⟨f, -, rfl⟩ | ⟨-, rfl⟩
    · rcases hrun with hrun | hrun <;> cases hrun
    · exact ⟨fun v => nextIp_of_taken, nextIp_of_not_taken⟩
  · rcases step_run_cases hr h with hrun | ⟨-, hhalt⟩ | ⟨g, rfl, -⟩
    · cases hrun.symm.trans hf
    · cases hhalt.symm.trans hf
    · rfl
  · obtain ⟨i, v, hfetch, htaken, rfl⟩ := step_leaves_memory hr hin h hout
    exact ⟨⟨i, hfetch, htaken⟩, hr, step_of_error hr (State.fetchDecode_of_le hout)⟩

/-- Settles O48: canonical cells are determined by what they read as. -/
theorem canonicalMemoriesAreEqual : Obligations.CanonicalMemoriesAreEqual :=
  fun _ _ hm hn h => Memory.eq_of_read_eq hm hn h

/-- Settles O4: the bytes it names are those the step fetches. -/
theorem stepRunsDecodedInstruction : Obligations.StepRunsDecodedInstruction := by
  intro s i hr hin hdecode
  simp only [ofNat_byteAt] at hdecode
  exact step_of_ok hr (State.fetchDecode_of_ok hin hdecode)

end

section
/-! The memory family: what stores, loads and fetches see of memory, and the decoders over a stream of bytes. -/

namespace Sys2Proof

/-! ### The encoder and the decoder -/

theorem length_encode (i : Instr) : (encode i).length = i.length := by cases i <;> rfl

/-- An encoding decodes to its instruction, whatever follows it (R75). -/
theorem decodeBytes_encode_append (i : Instr) (rest : List Byte) : decodeBytes (encode i ++ rest) = .ok i := by
  cases i with
  | nop | halt => rfl
  | jmpI | jlI | jeI | jgI | jnlI | jneI | jngI => rfl
  | add | sub | mul | div | load | store | mov | cmp => exact decodeRR_pairByte ..
  | inc | dec | put | jmpR | jlR | jeR | jgR | jnlR | jneR | jngR => exact decodeR_soloByte ..

/-- A stream that begins with an encoding decodes to that instruction, then to whatever the rest decodes to (R35). -/
theorem decodeAll_encode_append (n : Nat) (i : Instr) (rest : List Byte) :
    decodeAll (n + 1) (encode i ++ rest) = (decodeAll n rest).map (i :: ·) := by
  have hbytes := decodeBytes_encode_append i rest
  have hfits : i.length ≤ (encode i ++ rest).length := by simp [length_encode]
  have hrest : (encode i ++ rest).drop i.length = rest := by rw [← length_encode, List.drop_left]
  have hpos : 0 < i.length := by cases i <;> exact Nat.succ_pos _
  cases hstream : encode i ++ rest with
  | nil => simp [hstream] at hfits; omega
  | cons b bs =>
    rw [hstream] at hbytes hfits hrest
    simp only [decodeAll, hbytes, if_pos hfits, hrest]

end Sys2Proof

namespace Sys2Proof.Machine

open Vocabulary

/-! ### What a meaning does to memory, and what it sees of it -/

/-- A meaning leaves memory as it is, or writes one cell, at the address the instruction stores to (R36, R44). -/
theorem exec_mem_cases {i : Instr} {s t : State} (h : exec i s = .next t) :
    t.mem = s.mem ∨ ∃ addr v, storedAddress i s = some addr ∧ t.mem = s.mem.write addr.toNat v := by
  obtain ⟨-, heffect⟩ := effect_of_exec h
  cases heffect with
  | raised f same => exact .inl (same ▸ rfl)
  | plain mem => exact .inl mem
  | halts _ mem => exact .inl mem
  | stored a b isStore _ mem => exact .inr ⟨_, _, isStore ▸ rfl, mem⟩

theorem execFault_withMem (i : Instr) (s : State) (m : Memory) :
    execFault i { s with mem := m } = execFault i s := by
  cases i <;> rfl

/-- Only `load` brings a byte of memory into a register (R44). -/
theorem execDone_withMem {i : Instr} (s : State) (m : Memory) (h : ∀ a b, i ≠ .load a b) :
    (execDone i { s with mem := m }).x = (execDone i s).x ∧
      (execDone i { s with mem := m }).flag = (execDone i s).flag ∧
      (execDone i { s with mem := m }).ip = (execDone i s).ip ∧
      (execDone i { s with mem := m }).run = (execDone i s).run := by
  cases i with
  | load a b => exact absurd rfl (h a b)
  | _ => exact ⟨rfl, rfl, rfl, rfl⟩

/-- After a store inside memory the address stored to reads as the byte stored (R36, R39). -/
theorem read_of_exec_store {a b : Reg} {s t : State} (hwf : s.mem.wf) (hin : (s.readReg a).toNat < s.memSize)
    (h : exec (.store a b) s = .next t) : t.mem.read (s.readReg a).toNat = s.readReg b := by
  cases (exec_eq_done (i := .store a b) (if_neg (Nat.not_le.mpr hin))).symm.trans h
  exact Memory.read_write_same hwf _ _

/-- A load inside memory answers the byte at its address (R100). -/
theorem exec_load_of_lt {c d : Reg} {u : State} (hin : (u.readReg d).toNat < u.memSize) :
    exec (.load c d) u = .next ((u.writeReg c (u.mem.read (u.readReg d).toNat)).advance 2) :=
  exec_eq_done (if_neg (Nat.not_le.mpr hin))

/-! ### The byte-serial decoder

R60's text asks for one byte at a time. What it does after the first byte is compared with the decoder over three bytes,
format by format. -/

/-- What the byte-serial decoder answers from `s` where the decoder over three bytes answers this: the instruction and
the state past it, or the fault. -/
def State.answer (s : State) : Except DecodeError Instr → Except Fault (Instr × State)
  | .ok i => .ok (i, s.advance i.length)
  | .error e => .error (Fault.ofDecode e)

/-- The first fetch of a step inside memory (R33). -/
theorem State.fetch_first {s : State} (hin : s.ip.toNat < s.memSize) : s.fetch = .ok (s.codeByte 0, s.advance 1) := by
  rw [State.fetch_of_lt hin, State.codeByte, Nat.add_zero, Nat.mod_eq_of_lt hin]

/-- `LegalFirst` of R60 holds of the bytes of R57's list only. -/
theorem mem_legalFirstBytes {b : Byte} (h : legalFirst (hiNibble b) (loNibble b) = true) :
    b.toNat ∈ legalFirstBytes := by
  have hb := b.isLt
  have hhi : (hiNibble b).toNat = b.toNat / 16 := by
    rw [hiNibble_eq, BitVec.toNat_ofNat, Nat.mod_eq_of_lt (by omega)]
  have hlo : (loNibble b).toNat = b.toNat % 16 := by rw [loNibble_eq, BitVec.toNat_ofNat, Nat.mod_mod]
  simp only [legalFirstBytes, List.mem_cons, List.not_mem_nil, or_false]
  unfold legalFirst at h
  split at h
  case isTrue =>
    have := toNat_mod_of_loNibble_eq_zero (eq_of_beq h)
    omega
  case isFalse =>
    split at h <;>
    · have := of_decide_eq_true h
      omega

/-- `DecodeRR()` of R60, which always ends the instruction, makes the checks of `decodeRR` on the byte it fetches, in
the same order (R61). -/
theorem State.serialRR_eq_answer (s : State) (mk : Reg → Reg → Instr) (hlength : ∀ a b, (mk a b).length = 2) :
    ((s.advance 1).serialRR >>= fun p => .ok (mk p.1 p.2.1, p.2.2)) = s.answer (decodeRR mk (s.codeByte 1)) := by
  unfold State.serialRR serialReg decodeRR
  rw [State.fetch_advance]
  cases hhi : regOfNibble (hiNibble (s.codeByte 1)) with
  | error e => simp [bind, Except.bind, hhi, State.answer]
  | ok a =>
    cases hlo : regOfNibble (loNibble (s.codeByte 1)) with
    | error e => simp [bind, Except.bind, hhi, hlo, State.answer]
    | ok b => simp [bind, Except.bind, pure, Except.pure, hhi, hlo, hlength, State.answer]

/-- `DecodeR()` of R60 makes the checks of `decodeR` on the byte it fetches, in the same order (R61), whatever `k` does
with the register. -/
theorem State.serialR_bind_eq_answer (s : State) {mk : Reg → Instr} {k : Reg → State → Except Fault (Instr × State)}
    (hk : ∀ a, k a (s.advance 2) = s.answer (.ok (mk a))) :
    ((s.advance 1).serialR >>= fun p => k p.1 p.2) = s.answer (decodeR mk (s.codeByte 1)) := by
  unfold State.serialR serialReg decodeR
  rw [State.fetch_advance]
  cases hhi : regOfNibble (hiNibble (s.codeByte 1)) with
  | error e => simp [bind, Except.bind, hhi, State.answer]
  | ok a =>
    by_cases hlo : loNibble (s.codeByte 1) = 0#4
    · simp [bind, Except.bind, pure, Except.pure, hhi, hlo, hk]
    · simp [bind, Except.bind, hhi, hlo, State.answer, Fault.ofDecode]

/-- `DecodeR()` of R60, where it ends the instruction. -/
theorem State.serialR_eq_answer (s : State) (mk : Reg → Instr) (hlength : ∀ a, (mk a).length = 2) :
    ((s.advance 1).serialR >>= fun p => .ok (mk p.1, p.2)) = s.answer (decodeR mk (s.codeByte 1)) :=
  s.serialR_bind_eq_answer (k := fun a u => .ok (mk a, u)) fun a => by rw [State.answer, hlength]

/-- From an `ip` inside memory the byte-serial decoder answers what the decoder over three bytes does: by the first
byte, and for a legal one by its format. -/
theorem State.serialDecode_eq_answer {s : State} (hin : s.ip.toNat < s.memSize) :
    s.serialDecode = s.answer (decode (s.codeByte 0) (s.codeByte 1) (s.codeByte 2)) := by
  unfold State.serialDecode
  rw [State.fetch_first hin]
  generalize s.codeByte 0 = b0
  unfold decode
  split
  case h_28 =>
    cases hlegal : legalFirst (hiNibble b0) (loNibble b0) with
    | false => exact if_pos hlegal
    | true =>
      have hmem := mem_legalFirstBytes hlegal
      simp only [legalFirstBytes, List.mem_cons, List.not_mem_nil, or_false] at hmem
      simp_all only [imp_false, or_self]
  -- The first byte is known from here on, so the serial decoder's own tests of it evaluate.
  all_goals
    rename_i hb0
    obtain ⟨-, rfl⟩ := BitVec.toNat_eq_nat.mp hb0
  -- Format N.
  case h_1 | h_2 => rfl
  -- Format RR.
  case h_3 | h_4 | h_5 | h_6 | h_9 | h_10 | h_11 | h_13 => exact s.serialRR_eq_answer _ fun _ _ => rfl
  -- Formats R and JR.
  case h_7 | h_8 | h_14 | h_16 | h_18 | h_20 | h_22 | h_24 | h_26 => exact s.serialR_eq_answer _ fun _ => rfl
  -- Format RI: the immediate byte is fetched once the register byte has been checked.
  case h_12 =>
    refine s.serialR_bind_eq_answer (k := fun a u => u.fetch >>= fun p => .ok (.put a p.1, p.2)) fun a => ?_
    rw [State.fetch_advance]
    rfl
  -- Format JI.
  case h_15 | h_17 | h_19 | h_21 | h_23 | h_25 | h_27 =>
    show ((s.advance 1).fetch >>= fun p => .ok (_, p.2)) = _
    rw [State.fetch_advance]
    rfl

end Sys2Proof.Machine

open Sys2Proof Sys2Proof.Machine Sys2Proof.Vocabulary

/-- Settles O13, by induction on the list: each encoding is decoded off the front of the stream. -/
theorem instructionStreamDecodesBack : Obligations.InstructionStreamDecodesBack := by
  intro is
  induction is with
  | nil => rfl
  | cons i is ih =>
    have hsplit : encodeAll (i :: is) = encode i ++ encodeAll is := List.flatMap_cons
    rw [hsplit, List.length_cons, decodeAll_encode_append, ih, Option.map_some]

/-- Settles O43: the one cell a meaning can write is the one the instruction stores to. -/
theorem onlyStoredByteChanges : Obligations.OnlyStoredByteChanges := by
  intro i s t h
  rcases exec_mem_cases h with hmem | ⟨addr, v, haddr, hmem⟩
  · rw [hmem]
    exact ⟨fun _ _ _ _ => rfl, fun _ _ => rfl⟩
  · rw [hmem, haddr]
    refine ⟨fun _ hsome k hk => ?_, nofun⟩
    cases hsome
    exact Memory.read_write_other s.mem v hk

/-- Settles O44: neither what an instruction raises nor, but for `load`, what it writes depends on memory. -/
theorem onlyLoadSeesMemory : Obligations.OnlyLoadSeesMemory := by
  intro i s m hload
  rcases exec_pair (execFault_withMem i s m) with ⟨f, hs, hu⟩ | ⟨hs, hu⟩
  · exact ⟨_, _, hs, hu, rfl, rfl, rfl, rfl⟩
  · exact ⟨_, _, hs, hu, execDone_withMem s m hload⟩

/-- Settles O46: a fetch reads the byte of memory that the store wrote. -/
theorem storeIsSeenByFetch : Obligations.StoreIsSeenByFetch := by
  intro a b s t hwf hin h u k hmem hip
  rw [State.codeByte, hmem, hip]
  exact read_of_exec_store hwf hin h

/-- Settles O47: the load's address is the store's, inside memory of the same size. -/
theorem loadAfterStoreGivesStoredByte : Obligations.LoadAfterStoreGivesStoredByte := by
  intro a b c d s t u hwf hin h hmem hcfg haddr
  have hsize : u.memSize = s.memSize := congrArg Config.memSize (hcfg.trans (effect_of_exec h).1)
  have hinside : (u.readReg d).toNat < u.memSize := by rwa [haddr, hsize]
  have hread : u.mem.read (u.readReg d).toNat = s.readReg b := by
    rw [haddr, hmem, read_of_exec_store hwf hin h]
  rw [exec_load_of_lt hinside, hread]
  rfl

/-- Settles O17: beyond memory both fail at the first fetch, and inside it `serialDecode_eq_answer` compares them. -/
theorem serialDecodeAgreesWithWindow : Obligations.SerialDecodeAgreesWithWindow := by
  intro s
  rcases Nat.lt_or_ge s.ip.toNat s.memSize with hin | hout
  · rw [State.serialDecode_eq_answer hin]
    cases hdecode : decode (s.codeByte 0) (s.codeByte 1) (s.codeByte 2) with
    | ok i => rw [State.fetchDecode_of_ok hin hdecode]; rfl
    | error e => rw [State.fetchDecode_of_error hin hdecode]; rfl
  · rw [State.fetchDecode_of_le hout, State.serialDecode, State.fetch_of_le hout]
    rfl

end

section
/-! The encoding family: source forms, bytes and instructions answer to each other, and the assembler. -/

namespace Sys2Proof

open Machine Vocabulary

/-! ### Bytes and their fields -/

@[simp] theorem toNat_hiNibble (b : Byte) : (hiNibble b).toNat = b.toNat / 16 := by
  have := b.isLt
  rw [hiNibble_eq, BitVec.toNat_ofNat, Nat.mod_eq_of_lt (by omega)]

@[simp] theorem toNat_loNibble (b : Byte) : (loNibble b).toNat = b.toNat % 16 := by
  rw [loNibble_eq, BitVec.toNat_ofNat, Nat.mod_mod]

theorem toNat_field (a : Reg) : a.field.toNat = a.index := by cases a <;> rfl

/-- The register bytes as numbers (R51, R72). -/
theorem pairByte_eq (a b : Reg) : pairByte a b = BitVec.ofNat 8 (16 * a.index + b.index) := by
  rw [pairByte, packNibbles, toNat_field, toNat_field]

theorem soloByte_eq (a : Reg) : soloByte a = BitVec.ofNat 8 (16 * a.index) := by
  rw [soloByte, packNibbles, toNat_field]
  rfl

/-! ### The decoder by format -/

/-- What follows a first byte of format RR is read by `decodeRR`. -/
theorem decode_of_pairFirst {b0 : Byte} (h : b0.toNat ∈ pairFirstBytes) :
    ∃ mk, ∀ b1 b2, decode b0 b1 b2 = decodeRR mk b1 := by
  simp only [pairFirstBytes, List.mem_cons, List.not_mem_nil, or_false] at h
  rcases h with h | h | h | h | h | h | h | h <;>
  · obtain ⟨-, rfl⟩ := BitVec.toNat_eq_nat.mp h
    exact ⟨_, fun _ _ => rfl⟩

/-- What follows a first byte of a format with one register is read by `decodeR`; the third byte can only be an
operand. -/
theorem decode_of_soloFirst {b0 : Byte} (h : b0.toNat ∈ soloFirstBytes) :
    ∃ mk : Byte → Reg → Instr, ∀ b1 b2, decode b0 b1 b2 = decodeR (mk b2) b1 := by
  simp only [soloFirstBytes, List.mem_cons, List.not_mem_nil, or_false] at h
  rcases h with h | h | h | h | h | h | h | h | h | h <;>
  · obtain ⟨-, rfl⟩ := BitVec.toNat_eq_nat.mp h
    exact ⟨fun _ => _, fun _ _ => rfl⟩

/-- The first bytes of format JI take any second byte. -/
theorem decode_of_immediateFirst {b0 : Byte} (h : b0.toNat ∈ immediateFirstBytes) :
    ∃ mk : Byte → Instr, ∀ b1 b2, decode b0 b1 b2 = .ok (mk b1) := by
  simp only [immediateFirstBytes, List.mem_cons, List.not_mem_nil, or_false] at h
  rcases h with h | h | h | h | h | h | h <;>
  · obtain ⟨-, rfl⟩ := BitVec.toNat_eq_nat.mp h
    exact ⟨_, fun _ _ => rfl⟩

/-- A first byte that is not among the 27 is rejected, whatever follows it (R57). -/
theorem decode_of_illegalFirst {b0 : Byte} (b1 b2 : Byte) (h : b0.toNat ∉ legalFirstBytes) :
    decode b0 b1 b2 = .error (.illegalEncoding b0) := by
  unfold decode
  split
  case h_28 => rfl
  all_goals
    rename_i hb0
    exact absurd (hb0 ▸ by decide) h

/-- Every one of the 27 first bytes begins an instruction, here one whose other bytes are 0. -/
theorem exists_decode_of_legalFirst {fb : Nat} (h : fb ∈ legalFirstBytes) :
    ∃ i, decode (BitVec.ofNat 8 fb) 0 0 = .ok i := by
  have hall : ∀ n ∈ legalFirstBytes, (decode (BitVec.ofNat 8 n) 0 0).isOk = true := by decide
  have hok := hall fb h
  cases hdecode : decode (BitVec.ofNat 8 fb) 0 0 with
  | ok i => exact ⟨i, rfl⟩
  | error e =>
    rw [hdecode] at hok
    cases hok

/-- What the decoder accepts is the encoding of what it answers (R75). -/
theorem take_length_of_decode {b0 b1 b2 : Byte} {i : Instr} (h : decode b0 b1 b2 = .ok i) :
    [b0, b1, b2].take i.length = encode i := by
  unfold decode at h
  split at h
  case h_28 => cases h
  all_goals
    rename_i hb0
    obtain ⟨-, rfl⟩ := BitVec.toNat_eq_nat.mp hb0
  -- Formats N and JI.
  case h_1 | h_2 | h_15 | h_17 | h_19 | h_21 | h_23 | h_25 | h_27 => cases h; rfl
  -- Format RR.
  case h_3 | h_4 | h_5 | h_6 | h_9 | h_10 | h_11 | h_13 => obtain ⟨a, b, rfl, rfl⟩ := decodeRR_ok h; rfl
  -- Formats R, RI and JR.
  case h_7 | h_8 | h_12 | h_14 | h_16 | h_18 | h_20 | h_22 | h_24 | h_26 =>
    obtain ⟨a, rfl, rfl⟩ := decodeR_ok h
    rfl

theorem Instr.length_le_three (i : Instr) : i.length ≤ 3 := by cases i <;> simp [Instr.length]

/-- The bytes of a string that its decoder reads. -/
theorem take_getD_three {bs : List Byte} {n : Nat} (hn : n ≤ 3) (hbs : n ≤ bs.length) :
    [bs.getD 0 0#8, bs.getD 1 0#8, bs.getD 2 0#8].take n = bs.take n := by
  match bs with
  | [] | [_] | [_, _] => exact List.take_append_of_le_length hbs
  | b0 :: b1 :: b2 :: _ => exact (List.take_append_of_le_length (l₁ := [b0, b1, b2]) hn).symm

theorem encode_injective {i j : Instr} (h : encode i = encode j) : i = j := by
  have hi := decodeBytes_encode_append i []
  rw [h, decodeBytes_encode_append] at hi
  exact (Except.ok.inj hi).symm

/-! ### The family `Coding` over all instructions -/

theorem wellFormed_toSrc (i : Instr) : i.toSrc.wellFormed = true := by
  cases i with
  | nop | halt => rfl
  | add | sub | mul | div | load | store | mov | cmp => exact Laws.Coding.pair_wellFormed _ _ _ rfl
  | inc | dec | jmpR | jlR | jeR | jgR | jnlR | jneR | jngR => exact Laws.Coding.solo_wellFormed _ _ rfl
  | jmpI | jlI | jeI | jgI | jnlI | jneI | jngI => exact Laws.Coding.value_wellFormed _ _ rfl
  | put => exact Laws.Coding.soloValue_wellFormed _ _ _ rfl

/-- The first byte of an encoding tells the length of the instruction (R59). -/
theorem lengthOfFirst_encode (i : Instr) : lengthOfFirst ((encode i).getD 0 0#8) = i.length := by
  cases i <;> simp [encode, lengthOfFirst, Instr.length]

/-- The first byte the decoder accepted is that of the instruction's encoding. -/
theorem getD_encode_of_decode {b0 b1 b2 : Byte} {i : Instr} (h : decode b0 b1 b2 = .ok i) :
    (encode i).getD 0 0#8 = b0 := by
  rw [← take_length_of_decode h]
  cases i <;> rfl

/-! ### Source forms and instructions -/

@[simp] theorem regOfIndex_index (a : Reg) : regOfIndex a.index = some a := by cases a <;> rfl

@[simp] theorem byteOfValue_toNat (v : Byte) : byteOfValue v.toNat = some v := by
  rw [byteOfValue, if_pos v.isLt, BitVec.ofNat_toNat, BitVec.setWidth_eq]

@[simp] theorem pairForm_operands (mk : Reg → Reg → Instr) (a b : Reg) :
    pairForm mk [a.operand, b.operand] = some (mk a b) := by
  simp [pairForm, Reg.operand]

@[simp] theorem soloForm_operand (mk : Reg → Instr) (a : Reg) : soloForm mk [a.operand] = some (mk a) := by
  simp [soloForm, Reg.operand]

@[simp] theorem jumpForm_operand (mkR : Reg → Instr) (mkI : Byte → Instr) (a : Reg) :
    jumpForm mkR mkI [a.operand] = some (mkR a) := by
  simp [jumpForm, Reg.operand]

@[simp] theorem jumpForm_value (mkR : Reg → Instr) (mkI : Byte → Instr) (v : Byte) :
    jumpForm mkR mkI [.value v.toNat] = some (mkI v) := by
  simp [jumpForm]

@[simp] theorem instrOfSrc_put (a : Reg) (v : Byte) :
    instrOfSrc ⟨.put, [a.operand, .value v.toNat]⟩ = some (.put a v) := by
  simp [instrOfSrc, Reg.operand]

/-- Every instruction is the one its source form stands for. -/
theorem instrOfSrc_toSrc (i : Instr) : instrOfSrc i.toSrc = some i := by
  cases i with
  | nop | halt => rfl
  | add | sub | mul | div | load | store | mov | cmp => exact pairForm_operands ..
  | inc | dec => exact soloForm_operand ..
  | put => exact instrOfSrc_put ..
  | jmpR | jlR | jeR | jgR | jnlR | jneR | jngR => simp [Instr.toSrc, instrOfSrc]
  | jmpI | jlI | jeI | jgI | jnlI | jneI | jngI => simp [Instr.toSrc, instrOfSrc]

theorem regOfIndex_some {n : Nat} {a : Reg} (h : regOfIndex n = some a) : n = a.index := by
  unfold regOfIndex at h
  split at h <;> cases h <;> rfl

theorem byteOfValue_some {n : Nat} {v : Byte} (h : byteOfValue n = some v) : n = v.toNat := by
  unfold byteOfValue at h
  split at h
  case isTrue hn =>
    cases h
    rw [BitVec.toNat_ofNat, Nat.mod_eq_of_lt hn]
  case isFalse => cases h

theorem pairForm_some {mk : Reg → Reg → Instr} {os : List Operand} {i : Instr} (h : pairForm mk os = some i) :
    ∃ a b, i = mk a b ∧ os = [a.operand, b.operand] := by
  unfold pairForm at h
  split at h
  case h_1 =>
    split at h
    case h_1 ha hb =>
      cases h
      exact ⟨_, _, rfl, by rw [regOfIndex_some ha, regOfIndex_some hb]; rfl⟩
    case h_2 => cases h
  case h_2 => cases h

theorem soloForm_some {mk : Reg → Instr} {os : List Operand} {i : Instr} (h : soloForm mk os = some i) :
    ∃ a, i = mk a ∧ os = [a.operand] := by
  unfold soloForm at h
  split at h
  case h_1 =>
    obtain ⟨a, ha, rfl⟩ := Option.map_eq_some_iff.mp h
    exact ⟨a, rfl, by rw [regOfIndex_some ha]; rfl⟩
  case h_2 => cases h

theorem jumpForm_some {mkR : Reg → Instr} {mkI : Byte → Instr} {os : List Operand} {i : Instr}
    (h : jumpForm mkR mkI os = some i) :
    (∃ a, i = mkR a ∧ os = [a.operand]) ∨ ∃ v : Byte, i = mkI v ∧ os = [.value v.toNat] := by
  unfold jumpForm at h
  split at h
  case h_1 =>
    obtain ⟨a, ha, rfl⟩ := Option.map_eq_some_iff.mp h
    exact .inl ⟨a, rfl, by rw [regOfIndex_some ha]; rfl⟩
  case h_2 =>
    obtain ⟨v, hv, rfl⟩ := Option.map_eq_some_iff.mp h
    exact .inr ⟨v, rfl, by rw [byteOfValue_some hv]⟩
  case h_3 => cases h

/-- A source form that stands for an instruction is that instruction's own. -/
theorem toSrc_of_instrOfSrc {t : SrcInstr} {i : Instr} (h : instrOfSrc t = some i) : i.toSrc = t := by
  obtain ⟨m, os⟩ := t
  cases m with
  | nop | halt =>
    cases os with
    | nil => cases h; rfl
    | cons => cases h
  | add | sub | mul | div | load | store | mov | cmp => obtain ⟨a, b, rfl, rfl⟩ := pairForm_some h; rfl
  | inc | dec => obtain ⟨a, rfl, rfl⟩ := soloForm_some h; rfl
  | put =>
    simp only [instrOfSrc] at h
    split at h
    case h_1 =>
      split at h
      case h_1 ha hv =>
        cases h
        rw [regOfIndex_some ha, byteOfValue_some hv]
        rfl
      case h_2 => cases h
    case h_2 => cases h
  | jmp | jl | je | jg | jnl | jne | jng =>
    rcases jumpForm_some h with ⟨a, rfl, rfl⟩ | ⟨v, rfl, rfl⟩ <;> rfl

/-- The checks of R64, R65 and R70, of one operand. -/
def Operand.Checked (o : Operand) : Prop := o.resolved = true ∧ o.registerOk = true ∧ o.valueOk = true

/-- The operands of a well-formed source form are checked, and its shape is a signature of its mnemonic. -/
theorem checked_of_wellFormed {t : SrcInstr} (h : t.wellFormed = true) :
    t.operands.map Operand.kind ∈ t.mnemonic.signatures ∧ ∀ o ∈ t.operands, o.Checked := by
  simp only [SrcInstr.wellFormed, SrcInstr.shapeOk, SrcInstr.resolved, SrcInstr.registersOk, SrcInstr.valuesOk,
    Bool.and_eq_true, List.contains_iff_mem, List.all_eq_true] at h
  obtain ⟨⟨⟨hshape, hres⟩, hreg⟩, hval⟩ := h
  exact ⟨hshape, fun o ho => ⟨hres o ho, hreg o ho, hval o ho⟩⟩

/-- A checked operand of the kind register is a register, 0 to 3 (R64). -/
theorem Operand.Checked.exists_reg {o : Operand} (h : o.Checked) (hkind : o.kind = .register) :
    ∃ a : Reg, o = a.operand := by
  obtain ⟨-, hreg, -⟩ := h
  cases o with
  | reg n =>
    match n, of_decide_eq_true hreg with
    | 0, _ => exact ⟨.r0, rfl⟩
    | 1, _ => exact ⟨.r1, rfl⟩
    | 2, _ => exact ⟨.r2, rfl⟩
    | 3, _ => exact ⟨.r3, rfl⟩
  | value | label => cases hkind

/-- A checked operand of the kind value is a byte, as its label is resolved (R65, R70). -/
theorem Operand.Checked.exists_byte {o : Operand} (h : o.Checked) (hkind : o.kind = .valueOrLabel) :
    ∃ v : Byte, o = .value v.toNat := by
  obtain ⟨hres, -, hval⟩ := h
  cases o with
  | reg => cases hkind
  | value n => exact ⟨BitVec.ofNat 8 n, by rw [BitVec.toNat_ofNat, Nat.mod_eq_of_lt (of_decide_eq_true hval)]⟩
  | label => cases hres

/-- Checked operands whose first has the kind register begin with a register. -/
theorem exists_reg_cons {os : List Operand} {ks : List OperandKind} (hkinds : os.map Operand.kind = .register :: ks)
    (hchecked : ∀ o ∈ os, o.Checked) :
    ∃ a os', os = Reg.operand a :: os' ∧ os'.map Operand.kind = ks ∧ ∀ o ∈ os', o.Checked := by
  obtain ⟨o, os', rfl, hkind, hrest⟩ := List.map_eq_cons_iff.mp hkinds
  obtain ⟨ho, hos'⟩ := List.forall_mem_cons.mp hchecked
  obtain ⟨a, rfl⟩ := ho.exists_reg hkind
  exact ⟨a, os', rfl, hrest, hos'⟩

/-- Checked operands that are one value are one byte. -/
theorem exists_byte_singleton {os : List Operand} (hkinds : os.map Operand.kind = [.valueOrLabel])
    (hchecked : ∀ o ∈ os, o.Checked) : ∃ v : Byte, os = [.value v.toNat] := by
  obtain ⟨o, rfl, hkind⟩ := List.map_eq_singleton_iff.mp hkinds
  obtain ⟨v, rfl⟩ := (hchecked o List.mem_cons_self).exists_byte hkind
  exact ⟨v, rfl⟩

/-- A well-formed source form stands for an instruction: by the signatures of its mnemonic (R67). -/
theorem exists_instrOfSrc {t : SrcInstr} (h : t.wellFormed = true) : ∃ i, instrOfSrc t = some i := by
  obtain ⟨hshape, hchecked⟩ := checked_of_wellFormed h
  obtain ⟨m, os⟩ := t
  cases m with
  | nop | halt =>
    obtain rfl := List.map_eq_nil_iff.mp (List.mem_singleton.mp hshape)
    exact ⟨_, rfl⟩
  | add | sub | mul | div | load | store | mov | cmp =>
    obtain ⟨a, os, rfl, hrest, hchecked⟩ := exists_reg_cons (List.mem_singleton.mp hshape) hchecked
    obtain ⟨b, os, rfl, hrest, -⟩ := exists_reg_cons hrest hchecked
    obtain rfl := List.map_eq_nil_iff.mp hrest
    exact ⟨_, pairForm_operands ..⟩
  | inc | dec =>
    obtain ⟨a, os, rfl, hrest, -⟩ := exists_reg_cons (List.mem_singleton.mp hshape) hchecked
    obtain rfl := List.map_eq_nil_iff.mp hrest
    exact ⟨_, soloForm_operand ..⟩
  | put =>
    obtain ⟨a, os, rfl, hrest, hchecked⟩ := exists_reg_cons (List.mem_singleton.mp hshape) hchecked
    obtain ⟨v, rfl⟩ := exists_byte_singleton hrest hchecked
    exact ⟨_, instrOfSrc_put ..⟩
  | jmp | jl | je | jg | jnl | jne | jng =>
    rcases List.mem_cons.mp hshape with hshape | hshape
    · obtain ⟨a, os, rfl, hrest, -⟩ := exists_reg_cons hshape hchecked
      obtain rfl := List.map_eq_nil_iff.mp hrest
      simp [instrOfSrc]
    · obtain ⟨v, rfl⟩ := exists_byte_singleton (List.mem_singleton.mp hshape) hchecked
      simp [instrOfSrc]

/-! ### What a first byte names -/

/-- The mnemonic with this opcode number and condition code (R55, R56). -/
def mnemonicOfFields (op cc : Nat) : Option Mnemonic :=
  match op, cc with
  | 0, _ => some .nop
  | 1, _ => some .halt
  | 2, _ => some .add
  | 3, _ => some .sub
  | 4, _ => some .mul
  | 5, _ => some .div
  | 6, _ => some .inc
  | 7, _ => some .dec
  | 8, _ => some .load
  | 9, _ => some .store
  | 10, _ => some .mov
  | 11, _ => some .put
  | 12, _ => some .cmp
  | 13, _ => some .jmp
  | 14, 0 => some .jl
  | 14, 1 => some .je
  | 14, 2 => some .jg
  | 15, 0 => some .jnl
  | 15, 1 => some .jne
  | 15, 2 => some .jng
  | _, _ => none

/-- The operand kinds of the format with this first byte (R51, R55, R56). -/
def kindsOfFirst (fb : Nat) : List OperandKind :=
  if fb ∈ pairFirstBytes then [.register, .register]
  else if fb = 0xB0 then [.register, .valueOrLabel]
  else if fb ∈ soloFirstBytes then [.register]
  else if fb ∈ immediateFirstBytes then [.valueOrLabel]
  else []

theorem mnemonicOfFields_firstByte (i : Instr) :
    mnemonicOfFields (firstByte i / 16) (firstByte i % 16 / 2) = some i.toSrc.mnemonic := by
  cases i <;> simp [firstByte, encode, mnemonicOfFields, Instr.toSrc]

theorem kindsOfFirst_firstByte (i : Instr) : kindsOfFirst (firstByte i) = i.toSrc.operands.map Operand.kind := by
  cases i <;> rfl

theorem exists_firstByte_eq {fb : Nat} (h : fb ∈ legalFirstBytes) : ∃ i, firstByte i = fb := by
  have hlt : fb < 256 := (by decide : ∀ n ∈ legalFirstBytes, n < 256) fb h
  obtain ⟨i, hi⟩ := exists_decode_of_legalFirst h
  exact ⟨i, by rw [firstByte, getD_encode_of_decode hi, BitVec.toNat_ofNat, Nat.mod_eq_of_lt hlt]⟩

theorem firstByte_mem_legalFirstBytes (i : Instr) : firstByte i ∈ legalFirstBytes := by
  cases i <;> simp [firstByte, encode, legalFirstBytes]

end Sys2Proof

namespace Sys2Proof.Machine

open Vocabulary

/-! ### Reading a source line -/

/-- A word of a source line: not empty, without a separator and without the mark of a comment (R62). -/
def IsWord (w : List Char) : Prop := w ≠ [] ∧ ∀ c ∈ w, isSeparator c = false ∧ c ≠ ';'

/-- `splitWords` moves a word without separators to the word being read (R62). -/
theorem splitWords_append {w : List Char} (hw : ∀ c ∈ w, isSeparator c = false) (acc rest : List Char) :
    splitWords acc (w ++ rest) = splitWords (w.reverse ++ acc) rest := by
  induction w generalizing acc with
  | nil => rfl
  | cons c w ih =>
    obtain ⟨hc, hw⟩ := List.forall_mem_cons.mp hw
    cases acc <;> simp [splitWords, hc, ih hw]

/-- At a space the word being read, which is not empty, ends (R62). -/
theorem splitWords_space {acc : List Char} (hacc : acc ≠ []) (rest : List Char) :
    splitWords acc (' ' :: rest) = acc.reverse :: splitWords [] rest := by
  cases acc with
  | nil => exact absurd rfl hacc
  | cons => rfl

/-- At the end of the line too. -/
theorem splitWords_end {acc : List Char} (hacc : acc ≠ []) : splitWords acc [] = [acc.reverse] := by
  cases acc with
  | nil => exact absurd rfl hacc
  | cons => rfl

/-- `splitWords` gives back words written with a space before each but the first (R62). -/
theorem splitWords_words {w : List Char} {ws : List (List Char)} (hw : IsWord w) (hws : ∀ v ∈ ws, IsWord v) :
    splitWords [] (w ++ ws.flatMap (' ' :: ·)) = w :: ws := by
  induction ws generalizing w with
  | nil =>
    rw [List.flatMap_nil, splitWords_append fun c hc => (hw.2 c hc).1, List.append_nil,
      splitWords_end (by simpa using hw.1), List.reverse_reverse]
  | cons v ws ih =>
    obtain ⟨hv, hws⟩ := List.forall_mem_cons.mp hws
    rw [splitWords_append fun c hc => (hw.2 c hc).1, List.flatMap_cons, List.cons_append,
      splitWords_space (by simpa using hw.1), ih hv hws]
    simp

/-- A line without the mark of a comment is all text (R62). -/
theorem cutComment_eq_self {l : List Char} (h : ∀ c ∈ l, c ≠ ';') : cutComment l = l := by
  induction l with
  | nil => rfl
  | cons c l ih =>
    obtain ⟨hc, hl⟩ := List.forall_mem_cons.mp h
    have hkeep : (c != ';') = true := bne_iff_ne.mpr hc
    exact (List.takeWhile_cons_of_pos (p := (· != ';')) hkeep).trans (congrArg (c :: ·) (ih hl))

theorem lineWords_words {w : List Char} {ws : List (List Char)} (hw : IsWord w) (hws : ∀ v ∈ ws, IsWord v) :
    lineWords (w ++ ws.flatMap (' ' :: ·)) = w :: ws := by
  have hcut : cutComment (w ++ ws.flatMap (' ' :: ·)) = w ++ ws.flatMap (' ' :: ·) := by
    refine cutComment_eq_self fun c hc => ?_
    simp only [List.mem_append, List.mem_flatMap, List.mem_cons] at hc
    rcases hc with hc | ⟨v, hv, rfl | hc⟩
    · exact (hw.2 c hc).2
    · decide
    · exact ((hws v hv).2 c hc).2
  rw [lineWords, hcut, splitWords_words hw hws]

theorem isWord_mnemonicText (m : Mnemonic) : IsWord (mnemonicText m) := by
  have hchars : (mnemonicText m).all (fun c => !isSeparator c && c != ';') = true := by cases m <;> rfl
  exact ⟨by cases m <;> exact nofun, by simpa using hchars⟩

theorem dot_notMem_mnemonicText (m : Mnemonic) : '.' ∉ mnemonicText m := by
  have hdot : (mnemonicText m).contains '.' = false := by cases m <;> rfl
  simpa using hdot

theorem findMnemonic_mnemonicText (m : Mnemonic) : findMnemonic (mnemonicText m) = some m := by
  cases m <;> rfl

theorem isDigit_of_mem_toDigits {n : Nat} {c : Char} (h : c ∈ Nat.toDigits 10 n) : isDigit c = true := by
  simpa [isDigit, Char.isDigit, UInt32.le_iff_toNat_le] using Nat.isDigit_of_mem_toDigits (by decide) (by decide) h

theorem decimal_toDigits (n : Nat) : decimal (Nat.toDigits 10 n) = some n := by
  have hdigits : (Nat.toDigits 10 n).all isDigit = true :=
    List.all_eq_true.mpr fun _ => isDigit_of_mem_toDigits
  have hempty : (Nat.toDigits 10 n).isEmpty = false := by simp
  rw [decimal, hdigits, hempty]
  exact congrArg some Nat.ofDigitChars_ten_toDigits

/-- An operand that the assembler can write as a token: numbers in range, a label with a well-formed name (R64 to
R66). -/
def Writable : Operand → Prop
  | .reg n => n < 4
  | .value n => n < 256
  | .label name => labelName ('.' :: name) = some name

theorem classify_operandText {o : Operand} (h : Writable o) : classify (operandText o) = .ok o := by
  cases o with
  | reg n => simp [operandText, classify, decimal_toDigits, if_pos (show n < 4 from h)]
  | value n =>
    unfold operandText classify
    dsimp only
    split
    case h_1 heq => exact absurd (isDigit_of_mem_toDigits (c := 'r') (heq ▸ List.mem_cons_self)) (by decide)
    case h_2 heq => exact absurd (isDigit_of_mem_toDigits (c := '.') (heq ▸ List.mem_cons_self)) (by decide)
    case h_3 => simp [decimal_toDigits, if_pos (show n < 256 from h)]
  | label name =>
    have h : labelName ('.' :: name) = some name := h
    simp [operandText, classify, h]

theorem classifyAll_map_operandText {os : List Operand} (h : ∀ o ∈ os, Writable o) :
    classifyAll (os.map operandText) = .ok os := by
  induction os with
  | nil => rfl
  | cons o os ih =>
    obtain ⟨ho, hos⟩ := List.forall_mem_cons.mp h
    simp [classifyAll, classify_operandText ho, ih hos]

/-- Letters and digits separate no words and begin no comment. -/
theorem plain_of_letter_or_digit {c : Char} (h : isLetter c = true ∨ isDigit c = true) :
    isSeparator c = false ∧ c ≠ ';' := by
  have hne (d : Char) (hd : isLetter d = false ∧ isDigit d = false) : c ≠ d := by
    rintro rfl
    simp [hd] at h
  simp [isSeparator, hne ' ' (by decide), hne '\t' (by decide), hne ',' (by decide), hne ';' (by decide)]

/-- The characters of a label's name are letters and digits (R66). -/
theorem letter_or_digit_of_labelName {name : List Char} (h : labelName ('.' :: name) = some name) :
    ∀ c ∈ name, isLetter c = true ∨ isDigit c = true := by
  cases name with
  | nil => exact nofun
  | cons c cs =>
    simp only [labelName] at h
    split at h
    case isTrue hname =>
      simp only [Bool.and_eq_true, List.all_eq_true, Bool.or_eq_true] at hname
      obtain ⟨hc, hcs⟩ := hname
      exact List.forall_mem_cons.mpr ⟨.inl hc, hcs⟩
    case isFalse => cases h

theorem isWord_operandText {o : Operand} (h : Writable o) : IsWord (operandText o) := by
  have hdigits (n : Nat) (c : Char) (hc : c ∈ Nat.toDigits 10 n) : isSeparator c = false ∧ c ≠ ';' :=
    plain_of_letter_or_digit (.inr (isDigit_of_mem_toDigits hc))
  cases o with
  | reg n => exact ⟨nofun, List.forall_mem_cons.mpr ⟨by decide, hdigits n⟩⟩
  | value n => exact ⟨Nat.toDigits_ne_nil, hdigits n⟩
  | label name =>
    exact ⟨nofun, List.forall_mem_cons.mpr
      ⟨by decide, fun c hc => plain_of_letter_or_digit (letter_or_digit_of_labelName h c hc)⟩⟩

theorem lineWords_sourceText {t : SrcInstr} (h : ∀ o ∈ t.operands, Writable o) :
    lineWords (sourceText t) = mnemonicText t.mnemonic :: t.operands.map operandText := by
  rw [sourceText, ← List.flatMap_map operandText]
  refine lineWords_words (isWord_mnemonicText _) fun v hv => ?_
  obtain ⟨o, ho, rfl⟩ := List.mem_map.mp hv
  exact isWord_operandText (h o ho)

/-- The canonical line of a source instruction is read as that instruction (R62 to R67). -/
theorem readLine_sourceText {t : SrcInstr} (hshape : t.shapeOk = true) (h : ∀ o ∈ t.operands, Writable o) :
    readLine (sourceText t) = .ok (some (.instruction t)) := by
  simp [readLine, lineWords_sourceText h, findMnemonic_mnemonicText, classifyAll_map_operandText h, hshape]

theorem readLine_label {name : List Char} (h : labelName ('.' :: name) = some name) :
    readLine ('.' :: name) = .ok (some (.declares name)) := by
  have hwords : lineWords ('.' :: name) = ['.' :: name] := by
    simpa [operandText] using lineWords_words (ws := []) (isWord_operandText (o := .label name) h) nofun
  have hfind : findMnemonic ('.' :: name) = none := by
    refine List.find?_eq_none.mpr fun m _ hm => dot_notMem_mnemonicText m ?_
    rw [eq_of_beq hm]
    exact List.mem_cons_self
  simp [readLine, hwords, hfind, h]

/-! ### The two passes -/

/-- The line is read as the source instruction, of this many bytes (R67, R68). -/
def ReadsAs (line : List Char) (t : SrcInstr) (n : Nat) : Prop :=
  readLine line = .ok (some (.instruction t)) ∧ sizeOfKinds (t.operands.map Operand.kind) = some n

theorem readsAs_sourceText {t : SrcInstr} {n : Nat} (hshape : t.shapeOk = true)
    (hsize : sizeOfKinds (t.operands.map Operand.kind) = some n) (h : ∀ o ∈ t.operands, Writable o) :
    ReadsAs (sourceText t) t n :=
  ⟨readLine_sourceText hshape h, hsize⟩

/-- Pass 1 over lines that are read as instructions: they come first, and the cursor moves past them (R69). -/
theorem passOne_append {α : Type} {text : α → List Char} {src : α → SrcInstr} {size : α → Nat} {xs : List α}
    (h : ∀ x ∈ xs, ReadsAs (text x) (src x) (size x)) (lines : List (List Char)) (cursor : Nat)
    (table : LabelTable) :
    passOne (xs.map text ++ lines) cursor table =
      (passOne lines (cursor + (xs.map size).sum) table).map fun p => (xs.map src ++ p.1, p.2) := by
  induction xs generalizing cursor with
  | nil =>
    simp only [List.map_nil, List.sum_nil, List.nil_append, Nat.add_zero]
    exact (congrFun Except.map_id _).symm
  | cons x xs ih =>
    obtain ⟨⟨hread, hsize⟩, hxs⟩ := List.forall_mem_cons.mp h
    simp only [List.map_cons, List.cons_append, List.sum_cons, passOne, hread, hsize, ih hxs, Nat.add_assoc]
    cases passOne lines (cursor + (size x + (xs.map size).sum)) table <;> rfl

/-- Where the label table resolves the operands, the source instruction stands for `i` (R70, R72). -/
def ResolvesTo (table : LabelTable) (t : SrcInstr) (i : Instr) : Prop :=
  ∃ os, resolveAll table t.operands = .ok os ∧ instrOfSrc ⟨t.mnemonic, os⟩ = some i

theorem passTwo_cons {table : LabelTable} {t : SrcInstr} {i : Instr} (h : ResolvesTo table t i) (ts : List SrcInstr) :
    passTwo table (t :: ts) = (passTwo table ts).map (i :: ·) := by
  obtain ⟨os, hos, hi⟩ := h
  simp only [passTwo, hos, hi]
  cases passTwo table ts <;> rfl

theorem passTwo_map {α : Type} {table : LabelTable} {src : α → SrcInstr} {instr : α → Instr} {xs : List α}
    (h : ∀ x ∈ xs, ResolvesTo table (src x) (instr x)) : passTwo table (xs.map src) = .ok (xs.map instr) := by
  induction xs with
  | nil => rfl
  | cons x xs ih =>
    obtain ⟨hx, hxs⟩ := List.forall_mem_cons.mp h
    rw [List.map_cons, passTwo_cons hx, ih hxs]
    rfl

/-! ### The lines of instructions -/

theorem writable_of_checked {o : Operand} (h : o.Checked) : Writable o := by
  obtain ⟨hres, hreg, hval⟩ := h
  cases o with
  | reg n => exact of_decide_eq_true (p := n < 4) hreg
  | value n => exact of_decide_eq_true (p := n < 256) hval
  | label => cases hres

theorem readsAs_line (i : Instr) : ReadsAs (line i) i.toSrc i.length := by
  obtain ⟨hshape, hchecked⟩ := checked_of_wellFormed (wellFormed_toSrc i)
  have hsize : sizeOfKinds (i.toSrc.operands.map Operand.kind) = some i.length := by cases i <;> rfl
  exact readsAs_sourceText (List.contains_iff_mem.mpr hshape) hsize fun o ho => writable_of_checked (hchecked o ho)

/-- Operands without labels stay as they are (R70). -/
theorem resolveAll_of_resolved (table : LabelTable) {os : List Operand} (h : ∀ o ∈ os, o.resolved = true) :
    resolveAll table os = .ok os := by
  induction os with
  | nil => rfl
  | cons o os ih =>
    obtain ⟨ho, hos⟩ := List.forall_mem_cons.mp h
    cases o with
    | reg | value => simp [resolveAll, resolve, ih hos]
    | label => cases ho

theorem resolvesTo_toSrc (table : LabelTable) (i : Instr) : ResolvesTo table i.toSrc i := by
  obtain ⟨-, hchecked⟩ := checked_of_wellFormed (wellFormed_toSrc i)
  exact ⟨i.toSrc.operands, resolveAll_of_resolved table fun o ho => (hchecked o ho).1, instrOfSrc_toSrc i⟩

theorem assembleChars_lines (is : List Instr) : assembleChars (is.map line) = .ok (encodeAll is) := by
  have hone : passOne (is.map line) 0 [] = .ok (is.map Instr.toSrc, []) := by
    simpa [passOne, Except.map] using passOne_append (fun i (_ : i ∈ is) => readsAs_line i) [] 0 []
  have htwo : passTwo [] (is.map Instr.toSrc) = .ok is := by
    simpa using passTwo_map (instr := id) fun i (_ : i ∈ is) => resolvesTo_toSrc [] i
  simp only [assembleChars, hone, htwo]

/-! ### Programs with one label -/

/-- The mnemonic of a label user (R67). -/
def userMnemonic : LabelUser → Mnemonic
  | .jmp => .jmp
  | .jl => .jl
  | .je => .je
  | .jg => .jg
  | .jnl => .jnl
  | .jne => .jne
  | .jng => .jng
  | .put _ => .put

/-- The operands of a label user before its value operand (R67). -/
def userRegisters : LabelUser → List Operand
  | .put a => [a.operand]
  | _ => []

/-- The source instruction of an item that refers to the label `name` or to none. -/
def itemSrc (name : List Char) : SourceItem → SrcInstr
  | .plain i => i.toSrc
  | .refers u => ⟨userMnemonic u, userRegisters u ++ [.label name]⟩

theorem sourceText_append_label (m : Mnemonic) (os : List Operand) (name : List Char) :
    sourceText ⟨m, os ++ [.label name]⟩ = sourceText ⟨m, os⟩ ++ ' ' :: '.' :: name := by
  simp [sourceText, operandText]

theorem text_eq_sourceText (name : List Char) (item : SourceItem) :
    item.text name = sourceText (itemSrc name item) := by
  cases item with
  | plain i => rfl
  | refers u =>
    rw [itemSrc, sourceText_append_label]
    cases u with
    | put a => cases a <;> rfl
    | jmp | jl | je | jg | jnl | jne | jng => rfl

/-- A label's name that is well formed is written and read as itself, and so is every item that refers to it. -/
theorem readsAs_item {name : List Char} (h : labelName ('.' :: name) = some name) (item : SourceItem) :
    ReadsAs (item.text name) (itemSrc name item) item.size := by
  cases item with
  | plain i => exact readsAs_line i
  | refers u =>
    rw [text_eq_sourceText]
    cases u with
    | put a =>
      refine readsAs_sourceText rfl rfl ?_
      exact List.forall_mem_cons.mpr ⟨Laws.Coding.index_lt a, List.forall_mem_singleton.mpr h⟩
    | jmp | jl | je | jg | jnl | jne | jng => exact readsAs_sourceText rfl rfl (List.forall_mem_singleton.mpr h)

/-- Pass 1 of a program with one label: the label's value is the number of bytes before it (R69, R71). -/
theorem passOne_labelProgram {name : List Char} (h : labelName ('.' :: name) = some name)
    (before after : List SourceItem) :
    passOne (labelProgram name before after) 0 [] =
      .ok ((before ++ after).map (itemSrc name), [(name, sizeOfItems before)]) := by
  have hreads (items : List SourceItem) := passOne_append (xs := items) fun item _ => readsAs_item h item
  have hafter (cursor : Nat) (table : LabelTable) :
      passOne (after.map (SourceItem.text name)) cursor table = .ok (after.map (itemSrc name), table) := by
    simpa [passOne, Except.map] using hreads after [] cursor table
  rw [labelProgram, List.append_assoc, hreads before]
  simp [passOne, readLine_label h, findLabel, hafter, Except.map, sizeOfItems]

theorem findLabel_singleton (name : List Char) (n : Nat) : findLabel [(name, n)] name = some n := by
  simp [findLabel]

/-- With the label's value below 256 a label user stands for the instruction with that byte (R70). -/
theorem resolvesTo_item {name : List Char} {n : Nat} (hn : n < 256) (item : SourceItem) :
    ResolvesTo [(name, n)] (itemSrc name item) (item.instr (BitVec.ofNat 8 n)) := by
  have hbyte : byteOfValue n = some (BitVec.ofNat 8 n) := if_pos hn
  cases item with
  | plain i => exact resolvesTo_toSrc _ i
  | refers u =>
    cases u with
    | put a =>
      refine ⟨[a.operand, .value n], ?_, ?_⟩
      · simp [itemSrc, userRegisters, resolveAll, resolve, Reg.operand, findLabel_singleton, hn]
      · simp [itemSrc, userMnemonic, instrOfSrc, Reg.operand, hbyte, SourceItem.instr, LabelUser.instr]
    | jmp | jl | je | jg | jnl | jne | jng =>
      refine ⟨[.value n], ?_, ?_⟩
      · simp [itemSrc, userRegisters, resolveAll, resolve, findLabel_singleton, hn]
      · simp [itemSrc, userMnemonic, instrOfSrc, jumpForm, hbyte, SourceItem.instr, LabelUser.instr]

/-- A reference to a label whose value is above 255 is a range error (R71). -/
theorem resolveAll_of_ge {name : List Char} {n : Nat} (hn : 256 ≤ n) (u : LabelUser) :
    resolveAll [(name, n)] (userRegisters u ++ [.label name]) = .error .rangeError := by
  cases u <;> simp [userRegisters, resolveAll, resolve, Reg.operand, findLabel_singleton, Nat.not_lt.mpr hn]

/-- Pass 2 of items with such a reference: all before it are assembled, and it is the range error. -/
theorem passTwo_of_ge {name : List Char} {n : Nat} (hn : 256 ≤ n) {items : List SourceItem} {u : LabelUser}
    (h : .refers u ∈ items) : passTwo [(name, n)] (items.map (itemSrc name)) = .error .rangeError := by
  induction items with
  | nil => cases h
  | cons item items ih =>
    cases item with
    | refers w => simp [passTwo, itemSrc, resolveAll_of_ge hn]
    | plain i =>
      have htail : SourceItem.refers u ∈ items := by simpa using h
      rw [List.map_cons, itemSrc, passTwo_cons (resolvesTo_toSrc _ i), ih htail]
      rfl

end Sys2Proof.Machine

open Sys2Proof Sys2Proof.Machine Sys2Proof.Vocabulary

/-- Settles O11. A well-formed form has an instruction by its signature, and the encoding decodes back; conversely the
accepted bytes are the encoding, and encodings are told apart by decoding them. -/
theorem decodeEncodeRoundTrip : Obligations.DecodeEncodeRoundTrip := by
  refine ⟨fun t ht => ?_, fun bs i hdecode hfits => ?_⟩
  · obtain ⟨i, hi⟩ := exists_instrOfSrc ht
    exact ⟨i, hi, toSrc_of_instrOfSrc hi, decodeBytes_encode_append i⟩
  · have htake : bs.take i.length = encode i :=
      (take_getD_three i.length_le_three hfits).symm.trans (take_length_of_decode hdecode)
    exact ⟨htake, fun j hj => encode_injective (hj.symm.trans htake)⟩

/-- Settles O12: a form that stands for an instruction is that instruction's own, and those are well formed. -/
theorem wellFormedSourceHasInstruction : Obligations.WellFormedSourceHasInstruction := by
  refine ⟨fun t => ⟨exists_instrOfSrc, fun ⟨i, hi⟩ => ?_⟩, fun i => ⟨wellFormed_toSrc i, instrOfSrc_toSrc i⟩⟩
  rw [← toSrc_of_instrOfSrc hi]
  exact wellFormed_toSrc i

/-- Settles O14, clause by clause: the list of 27, the illegal first bytes, and the register byte of each format. (It
stands in a namespace, as the list itself has its name in `Vocabulary`.) -/
theorem Sys2Proof.Laws.Coding.legalFirstBytes : Obligations.LegalFirstBytes := by
  refine ⟨by decide, rfl, fun b0 => ⟨exists_firstByte_eq, ?_⟩, fun b0 => ?_,
    fun b0 b1 b2 => decode_of_illegalFirst b1 b2, fun b0 b1 b2 hfirst hhi => ?_,
    fun b0 b1 b2 hfirst hhi hlo => ?_, fun b0 b1 b2 hfirst hhi hlo => ?_, fun b0 b1 b2 hfirst => ?_, fun a v => ?_⟩
  · rintro ⟨i, hi⟩
    exact hi ▸ firstByte_mem_legalFirstBytes i
  · have := b0.isLt
    simp only [Vocabulary.legalFirstBytes, List.mem_cons, List.not_mem_nil, or_false]
    omega
  · rw [← hiNibble_eq]
    rw [← toNat_hiNibble] at hhi
    rcases hfirst with hfirst | hfirst
    · obtain ⟨mk, hmk⟩ := decode_of_pairFirst hfirst
      rw [hmk, decodeRR_hi mk hhi]
    · obtain ⟨mk, hmk⟩ := decode_of_soloFirst hfirst
      rw [hmk, decodeR_hi (mk b2) hhi]
  · rw [← loNibble_eq]
    obtain ⟨mk, hmk⟩ := decode_of_pairFirst hfirst
    rw [hmk, decodeRR_lo mk (toNat_hiNibble b1 ▸ hhi) (toNat_loNibble b1 ▸ hlo)]
  · obtain ⟨mk, hmk⟩ := decode_of_soloFirst hfirst
    have hlo' : loNibble b1 ≠ 0 := fun h => hlo (toNat_mod_of_loNibble_eq_zero h)
    rw [hmk, decodeR_lo (mk b2) (toNat_hiNibble b1 ▸ hhi) hlo']
  · obtain ⟨mk, hmk⟩ := decode_of_immediateFirst hfirst
    exact ⟨_, hmk b1 b2⟩
  · rw [← soloByte_eq]
    exact decodeR_soloByte (fun a => .put a v) a

/-- Settles O15: the decoded instruction has the first byte it was decoded from, and that tells its length. -/
theorem lengthToldByFirstByte : Obligations.LengthToldByFirstByte := by
  intro b0 b1 b2 i hdecode
  have hlength := lengthOfFirst_encode i
  rw [getD_encode_of_decode hdecode, lengthOfFirst, toNat_hiNibble] at hlength
  split at hlength
  case isTrue => exact ⟨by omega, by omega, by omega, length_encode i⟩
  case isFalse => split at hlength <;> exact ⟨by omega, by omega, by omega, length_encode i⟩

/-- Settles O16: the fields of a first byte determine the mnemonic, and the first byte the operand kinds. -/
theorem firstByteNamesOneForm : Obligations.FirstByteNamesOneForm := by
  have hmnemonic {i j : Instr} (hop : firstByte i / 16 = firstByte j / 16)
      (hcc : firstByte i % 16 / 2 = firstByte j % 16 / 2) : i.toSrc.mnemonic = j.toSrc.mnemonic := by
    have hi := mnemonicOfFields_firstByte i
    rw [hop, hcc, mnemonicOfFields_firstByte] at hi
    exact (Option.some.inj hi).symm
  refine ⟨fun i j => hmnemonic, fun i j hfirst => ⟨hmnemonic (by rw [hfirst]) (by rw [hfirst]), ?_⟩,
    fun fb => exists_firstByte_eq⟩
  rw [← kindsOfFirst_firstByte, hfirst, kindsOfFirst_firstByte]

/-- Settles O18: each of the words is the encoding of its instruction. -/
theorem specWordsDecode : Obligations.SpecWordsDecode :=
  ⟨decodeBytes_encode_append .halt [], decodeBytes_encode_append (.add .r1 .r2) [],
    decodeBytes_encode_append (.dec .r1) [], decodeBytes_encode_append (.store .r0 .r1) [],
    decodeBytes_encode_append (.put .r2 255#8) [], decodeBytes_encode_append (.cmp .r1 .r1) [],
    decodeBytes_encode_append (.jmpI 200#8) [], decodeBytes_encode_append (.jngR .r1) []⟩

/-- Settles O52: the canonical lines are read and assembled as their instructions, and the rows of R72's table are the
encoder's, with the register bytes as numbers. -/
theorem assembleEncodesSourceForms : Obligations.AssembleEncodesSourceForms := by
  refine ⟨assembleChars_lines, fun fb mk h a b => ?_, fun fb mk h a => ?_, fun fb mk h v => ?_, rfl, rfl, fun a v => ?_⟩
  · rw [← pairByte_eq]
    simp only [List.mem_cons, Prod.mk.injEq, List.not_mem_nil, or_false] at h
    rcases h with ⟨rfl, rfl⟩ | ⟨rfl, rfl⟩ | ⟨rfl, rfl⟩ | ⟨rfl, rfl⟩ | ⟨rfl, rfl⟩ | ⟨rfl, rfl⟩ | ⟨rfl, rfl⟩ |
      ⟨rfl, rfl⟩ <;> rfl
  · rw [← soloByte_eq]
    simp only [List.mem_cons, Prod.mk.injEq, List.not_mem_nil, or_false] at h
    rcases h with ⟨rfl, rfl⟩ | ⟨rfl, rfl⟩ | ⟨rfl, rfl⟩ | ⟨rfl, rfl⟩ | ⟨rfl, rfl⟩ | ⟨rfl, rfl⟩ | ⟨rfl, rfl⟩ |
      ⟨rfl, rfl⟩ | ⟨rfl, rfl⟩ <;> rfl
  · simp only [List.mem_cons, Prod.mk.injEq, List.not_mem_nil, or_false] at h
    rcases h with ⟨rfl, rfl⟩ | ⟨rfl, rfl⟩ | ⟨rfl, rfl⟩ | ⟨rfl, rfl⟩ | ⟨rfl, rfl⟩ | ⟨rfl, rfl⟩ | ⟨rfl, rfl⟩ <;>
    rfl
  · rw [← soloByte_eq]
    rfl

/-- Settles O53: pass 1 gives the label the number of bytes before it, and pass 2 replaces every reference by it, or
refuses the first one where it is above 255. -/
theorem labelsResolveToByteOffsets : Obligations.LabelsResolveToByteOffsets := by
  intro before after name hname
  have hone := passOne_labelProgram hname before after
  refine ⟨fun hsize => ?_, fun hsize u hu => ?_, fun is js hbefore hafter => ?_⟩
  · have htwo := passTwo_map fun item (_ : item ∈ before ++ after) => resolvesTo_item (name := name) hsize item
    simp only [assembleChars, hone, htwo]
  · simp only [assembleChars, hone, passTwo_of_ge hsize hu]
  · have hitems : (before ++ after).map (itemSrc name) = (is ++ js).map Instr.toSrc := by
      simp [hbefore, hafter, itemSrc, Function.comp_def]
    have htwo := passTwo_map (instr := id) fun i (_ : i ∈ is ++ js) => resolvesTo_toSrc [(name, sizeOfItems before)] i
    rw [← hitems, List.map_id] at htwo
    simp only [assembleChars, hone, htwo]

end

section
/-! The `nop` and `halt` family: what a step does with the bytes at `ip`, format N, and a memory of zeros. -/

namespace Sys2Proof.Machine

open Vocabulary

/-! ### The step of a running engine, by the bytes at `ip` -/

/-- A running engine inside memory runs the instruction whose encoding stands at `ip` (R60). -/
theorem step_of_encode {s : State} {i : Instr} {rest : List Byte} (hr : s.run = .running)
    (hin : s.ip.toNat < s.memSize)
    (hcode : [s.codeByte 0, s.codeByte 1, s.codeByte 2] = encode i ++ rest) : step s = exec i s := by
  have hdecode : decodeBytes [s.codeByte 0, s.codeByte 1, s.codeByte 2] = .ok i :=
    hcode ▸ decodeBytes_encode_append i rest
  exact step_of_ok hr (State.fetchDecode_of_ok hin hdecode)

/-- Beyond memory a step raises `FetchBounds` (R33). -/
theorem raises_fetchBounds {s : State} (hr : s.run = .running) (hout : s.memSize ≤ s.ip.toNat) :
    Raises s (.fetchBounds s.ip) :=
  step_of_error hr (State.fetchDecode_of_le hout)

theorem codeByte_of_byteAt {s : State} {k n : Nat} (h : byteAt s k = n) : s.codeByte k = BitVec.ofNat 8 n := by
  rw [← ofNat_byteAt, h]

/-- A first byte that is not among the 27 raises `IllegalEncoding` of it (R57). -/
theorem raises_illegalEncoding_of_first {s : State} {n : Nat} (hr : s.run = .running) (hin : s.ip.toNat < s.memSize)
    (hbyte : byteAt s 0 = n) (hillegal : n ∉ legalFirstBytes) :
    Raises s (.illegalEncoding (BitVec.ofNat 8 n)) := by
  subst hbyte
  rw [ofNat_byteAt]
  exact step_of_error hr (State.fetchDecode_of_error hin (decode_of_illegalFirst _ _ hillegal))

/-- The opcodes up to 12 are legal with the selector 0 only (R57). -/
theorem notMem_legalFirstBytes_of_selector {fb sel : Nat} (hop : fb % 16 = 0) (hfb : fb ≤ 0xC0) (hpos : 1 ≤ sel)
    (hsel : sel ≤ 15) : fb + sel ∉ legalFirstBytes := by
  simp only [legalFirstBytes, List.mem_cons, List.not_mem_nil, or_false]
  omega

/-- An instruction that is encoded as one byte with the selector 0 has format N (R51). -/
theorem formatN_of_encode {fb : Nat} {i : Instr} (hop : fb % 16 = 0) (hfb : fb ≤ 0xC0)
    (hencode : encode i = [BitVec.ofNat 8 fb]) : FormatN fb i := by
  refine ⟨hencode, fun s hr => ⟨raises_fetchBounds hr, fun hin => ⟨fun hbyte => ?_, fun sel hpos hsel hbyte => ?_⟩⟩⟩
  · refine step_of_encode (rest := [s.codeByte 1, s.codeByte 2]) hr hin ?_
    rw [hencode, codeByte_of_byteAt hbyte]
    rfl
  · exact raises_illegalEncoding_of_first hr hin hbyte (notMem_legalFirstBytes_of_selector hop hfb hpos hsel)

theorem formatN_nop : FormatN 0x00 .nop := formatN_of_encode rfl (by decide) rfl

theorem formatN_halt : FormatN 0x10 .halt := formatN_of_encode rfl (by decide) rfl

/-! ### A memory of zeros -/

theorem State.advance_zero {s : State} (hin : s.ip.toNat < s.memSize) : s.advance 0 = s := by
  have hip : s.ipPlus 0 = s.ip := by
    apply BitVec.eq_of_toNat_eq
    rw [s.toNat_ipPlus, Nat.add_zero, Nat.mod_eq_of_lt hin]
  rw [State.advance, hip]

/-- Over a zero the step is a `nop` (R80). -/
theorem step_of_byteAt_zero {s : State} (hr : s.run = .running) (hin : s.ip.toNat < s.memSize)
    (hbyte : byteAt s 0 = 0) : step s = .next (s.advance 1) := by
  obtain ⟨-, hsteps⟩ := formatN_nop
  obtain ⟨-, hinside⟩ := hsteps s hr
  obtain ⟨hnop, -⟩ := hinside hin
  exact (hnop hbyte).trans (exec_eq .nop s)

/-- In a memory of zeros the engine goes on through `nop`s; the advances add up, wrapping at `MEM_SIZE` (R12, R80). -/
theorem run_of_zero_memory (n : Nat) {s : State} (hr : s.run = .running) (hin : s.ip.toNat < s.memSize)
    (hzero : ∀ a, s.mem.read a = 0#8) : core.run n s = .next (s.advance n) := by
  induction n generalizing s with
  | zero => rw [run_zero, State.advance_zero hin]
  | succ n ih =>
    have hstep := step_of_byteAt_zero hr hin (congrArg BitVec.toNat (hzero _))
    calc core.run (n + 1) s = core.run n (s.advance 1) := run_succ n hstep
      _ = .next ((s.advance 1).advance n) := ih hr (s.ipPlus_lt 1) hzero
      _ = .next (s.advance (n + 1)) := by rw [State.advance_advance, Nat.add_comm]

end Sys2Proof.Machine

open Sys2Proof Sys2Proof.Machine Sys2Proof.Vocabulary

/-- Settles O19: `nop` is an advance by one, and a memory of zeros is `nop`s throughout. -/
theorem nopOnlyMovesIp : Obligations.NopOnlyMovesIp :=
  ⟨formatN_nop, exec_eq .nop, fun n _ hr hin hzero => run_of_zero_memory n hr hin hzero⟩

/-- Settles O20: the state `halt` leaves is over, so nothing changes it. -/
theorem haltStopsTheEngine : Obligations.HaltStopsTheEngine := by
  refine ⟨formatN_halt, fun s => ⟨exec_eq .halt s, rfl, run_of_over ?_⟩⟩
  exact (nofun : Run.halted ≠ .running)

end

section
/-! The arithmetic family: formats RR and R, and results modulo 256. -/

namespace Sys2Proof.Machine

open Vocabulary

/-! ### Formats with a register byte -/

theorem hiNibble_codeByte (s : State) (k : Nat) : hiNibble (s.codeByte k) = BitVec.ofNat 4 (byteAt s k / 16) :=
  hiNibble_eq (s.codeByte k)

theorem loNibble_codeByte (s : State) (k : Nat) : loNibble (s.codeByte k) = BitVec.ofNat 4 (byteAt s k % 16) :=
  loNibble_eq (s.codeByte k)

theorem toNat_hiNibble_codeByte (s : State) (k : Nat) : (hiNibble (s.codeByte k)).toNat = byteAt s k / 16 :=
  toNat_hiNibble (s.codeByte k)

theorem toNat_loNibble_codeByte (s : State) (k : Nat) : (loNibble (s.codeByte k)).toNat = byteAt s k % 16 :=
  toNat_loNibble (s.codeByte k)

section
variable {fb : Nat} {s : State} (hr : s.run = .running) (hin : s.ip.toNat < s.memSize)
include hr hin

/-- A rejection of the decoder is the fault a step inside memory raises (R57, R58). -/
theorem raises_of_decode_error {e : DecodeError}
    (hdecode : decode (s.codeByte 0) (s.codeByte 1) (s.codeByte 2) = .error e) : Raises s (Fault.ofDecode e) :=
  step_of_error hr (State.fetchDecode_of_error hin hdecode)

/-- A first register field of 4 to 15 in format RR (R58). -/
theorem raises_registerIndex_of_pairHigh (hfb : fb ∈ pairFirstBytes) (hbyte : byteAt s 0 = fb)
    (hhi : 4 ≤ byteAt s 1 / 16) : Raises s (.registerIndex (BitVec.ofNat 4 (byteAt s 1 / 16))) := by
  subst hbyte
  obtain ⟨mk, hdecode⟩ := decode_of_pairFirst (b0 := s.codeByte 0) hfb
  rw [← toNat_hiNibble_codeByte] at hhi
  rw [← hiNibble_codeByte]
  exact raises_of_decode_error hr hin ((hdecode _ _).trans (decodeRR_hi mk hhi))

/-- A second register field of 4 to 15 in format RR, the first being a register (R58, R61). -/
theorem raises_registerIndex_of_pairLow (hfb : fb ∈ pairFirstBytes) (hbyte : byteAt s 0 = fb)
    (hhi : byteAt s 1 / 16 < 4) (hlo : 4 ≤ byteAt s 1 % 16) :
    Raises s (.registerIndex (BitVec.ofNat 4 (byteAt s 1 % 16))) := by
  subst hbyte
  obtain ⟨mk, hdecode⟩ := decode_of_pairFirst (b0 := s.codeByte 0) hfb
  rw [← toNat_hiNibble_codeByte] at hhi
  rw [← toNat_loNibble_codeByte] at hlo
  rw [← loNibble_codeByte]
  exact raises_of_decode_error hr hin ((hdecode _ _).trans (decodeRR_lo mk hhi hlo))

/-- The register byte's faults are the same in formats R, RI and JR (R57, R58, R61). -/
theorem soloByteFaults (hfb : fb ∈ soloFirstBytes) : SoloByteFaults fb s := by
  have hsolo (hbyte : byteAt s 0 = fb) :
      ∃ mk : Byte → Reg → Instr, ∀ b1 b2, decode (s.codeByte 0) b1 b2 = decodeR (mk b2) b1 := by
    subst hbyte
    exact decode_of_soloFirst (b0 := s.codeByte 0) hfb
  refine ⟨fun hbyte hhi => ?_, fun hbyte hhi hlo => ?_⟩
  · obtain ⟨mk, hdecode⟩ := hsolo hbyte
    rw [← toNat_hiNibble_codeByte] at hhi
    rw [← hiNibble_codeByte]
    exact raises_of_decode_error hr hin ((hdecode _ _).trans (decodeR_hi _ hhi))
  · obtain ⟨mk, hdecode⟩ := hsolo hbyte
    rw [← toNat_hiNibble_codeByte] at hhi
    rw [← toNat_loNibble_codeByte] at hlo
    rw [ofNat_byteAt]
    exact raises_of_decode_error hr hin
      ((hdecode _ _).trans (decodeR_lo _ hhi fun hzero => hlo (congrArg BitVec.toNat hzero)))

/-- A running engine inside memory runs the two-byte instruction whose bytes stand at `ip` (R60). -/
theorem step_of_encode_two {i : Instr} {n : Nat} (hencode : encode i = [BitVec.ofNat 8 fb, BitVec.ofNat 8 n])
    (hfirst : byteAt s 0 = fb) (hsecond : byteAt s 1 = n) : step s = exec i s := by
  refine step_of_encode (rest := [s.codeByte 2]) hr hin ?_
  rw [hencode, codeByte_of_byteAt hfirst, codeByte_of_byteAt hsecond]
  rfl

end

/-- The first bytes of format RR have an opcode up to 12 and the selector 0 (R51, R57). -/
theorem selector_zero_of_pairFirst : ∀ fb ∈ pairFirstBytes, fb % 16 = 0 ∧ fb ≤ 0xC0 := by decide

/-- Instructions encoded as a first byte of format RR and a byte of two registers have that format (R51). -/
theorem formatRR_of_encode {fb : Nat} {mk : Reg → Reg → Instr} (hfb : fb ∈ pairFirstBytes)
    (hencode : ∀ a b, encode (mk a b) = [BitVec.ofNat 8 fb, pairByte a b]) : FormatRR fb mk := by
  obtain ⟨hop, hmax⟩ := selector_zero_of_pairFirst fb hfb
  simp only [pairByte_eq] at hencode
  refine ⟨hencode, fun s hr => ⟨raises_fetchBounds hr, fun hin => ⟨?_, ?_, ?_, ?_⟩⟩⟩
  · exact fun a b => step_of_encode_two hr hin (hencode a b)
  · exact fun sel hpos hsel hbyte =>
      raises_illegalEncoding_of_first hr hin hbyte (notMem_legalFirstBytes_of_selector hop hmax hpos hsel)
  · exact raises_registerIndex_of_pairHigh hr hin hfb
  · exact raises_registerIndex_of_pairLow hr hin hfb

/-- Instructions encoded as a first byte of format R and a byte of one register have that format (R51). -/
theorem formatR_of_encode {fb : Nat} {mk : Reg → Instr} (hfb : fb ∈ soloFirstBytes) (hop : fb % 16 = 0)
    (hmax : fb ≤ 0xC0) (hencode : ∀ a, encode (mk a) = [BitVec.ofNat 8 fb, soloByte a]) : FormatR fb mk := by
  simp only [soloByte_eq] at hencode
  refine ⟨hencode, fun s hr => ⟨raises_fetchBounds hr, fun hin => ⟨?_, ?_, ?_⟩⟩⟩
  · exact fun a => step_of_encode_two hr hin (hencode a)
  · exact fun sel hpos hsel hbyte =>
      raises_illegalEncoding_of_first hr hin hbyte (notMem_legalFirstBytes_of_selector hop hmax hpos hsel)
  · exact soloByteFaults hr hin hfb

/-! ### Results -/

/-- A meaning of two bytes that writes one register leaves there the number its value has. -/
theorem exec_eq_set_ofNat {i : Instr} {s : State} {a : Reg} {v : Byte} {n : Nat}
    (hexec : exec i s = .next ((s.writeReg a v).advance 2)) (hv : v.toNat = n) :
    exec i s = .next { s with x := s.x.set a (BitVec.ofNat 8 n), ip := ipAfter s 2 } := by
  obtain ⟨-, rfl⟩ := BitVec.toNat_eq_nat.mp hv
  exact hexec

/-- A division by a non-zero divisor writes the two results, computed from the start state, over `x0` and `x1` (R94). -/
theorem exec_div_of_ne_zero {a b : Reg} {s : State} (hdivisor : (s.readReg b).toNat ≠ 0) :
    exec (.div a b) s = .next { s with
      x := { s.x with
        x0 := BitVec.ofNat 8 ((s.readReg a).toNat / (s.readReg b).toNat)
        x1 := BitVec.ofNat 8 ((s.readReg a).toNat % (s.readReg b).toNat) }
      ip := ipAfter s 2 } :=
  exec_eq_done (if_neg hdivisor)

theorem toNat_ofNat_of_le_byte {n : Nat} {v : Byte} (h : n ≤ v.toNat) : (BitVec.ofNat 8 n).toNat = n :=
  Nat.mod_eq_of_lt (Nat.lt_of_le_of_lt h v.isLt)

/-- Quotient and remainder are no larger than the dividend, so both fit their registers (R90, R94). -/
theorem toNat_readReg_of_exec_div {a b : Reg} {s t : State} (hdivisor : (s.readReg b).toNat ≠ 0)
    (hexec : exec (.div a b) s = .next t) :
    (t.readReg .r0).toNat = (s.readReg a).toNat / (s.readReg b).toNat ∧
      (t.readReg .r1).toNat = (s.readReg a).toNat % (s.readReg b).toNat := by
  cases (exec_div_of_ne_zero hdivisor).symm.trans hexec
  exact ⟨toNat_ofNat_of_le_byte (Nat.div_le_self ..), toNat_ofNat_of_le_byte (Nat.mod_le ..)⟩

end Sys2Proof.Machine

open Sys2Proof Sys2Proof.Machine Sys2Proof.Vocabulary

/-- Settles O21: the truncated sum is the sum modulo 256. -/
theorem addWrapsModulo256 : Obligations.AddWrapsModulo256 :=
  ⟨formatRR_of_encode (by decide) fun _ _ => rfl,
    fun a b s => exec_eq_set_ofNat (exec_eq (.add a b) s) (toNat_trunc8_add ..)⟩

/-- Settles O22: truncating a negative difference adds 256. -/
theorem subWrapsModulo256 : Obligations.SubWrapsModulo256 :=
  ⟨formatRR_of_encode (by decide) fun _ _ => rfl,
    fun a b s => exec_eq_set_ofNat (exec_eq (.sub a b) s) (toNat_trunc8_sub ..)⟩

/-- Settles O23: the truncated product is its low byte. -/
theorem mulKeepsLowByte : Obligations.MulKeepsLowByte :=
  ⟨formatRR_of_encode (by decide) fun _ _ => rfl,
    fun a b s => exec_eq_set_ofNat (exec_eq (.mul a b) s) (toNat_trunc8_mul ..)⟩

/-- Settles O24: the divisor decides between the raise and the two writes. -/
theorem divWritesQuotientAndRemainder : Obligations.DivWritesQuotientAndRemainder :=
  ⟨formatRR_of_encode (by decide) fun _ _ => rfl,
    fun _ _ _ => ⟨exec_div_of_ne_zero, fun hzero => exec_eq_raise (if_pos hzero)⟩⟩

/-- Settles O25: the registers hold quotient and remainder untruncated, which satisfy the division equation. -/
theorem divisionIsEuclidean : Obligations.DivisionIsEuclidean := by
  intro a b s t hdivisor hexec
  obtain ⟨hquotient, hremainder⟩ := toNat_readReg_of_exec_div hdivisor hexec
  rw [hquotient, hremainder]
  exact ⟨(Nat.div_add_mod ..).symm, Nat.mod_lt _ (Nat.pos_of_ne_zero hdivisor)⟩

/-- Settles O26: the truncated successor is the successor modulo 256. -/
theorem incWrapsModulo256 : Obligations.IncWrapsModulo256 :=
  ⟨formatR_of_encode (by decide) rfl (by decide) fun _ => rfl,
    fun a s => exec_eq_set_ofNat (exec_eq (.inc a) s) (toNat_trunc8_succ ..)⟩

/-- Settles O27: truncating the predecessor of 0 gives 255. -/
theorem decWrapsModulo256 : Obligations.DecWrapsModulo256 :=
  ⟨formatR_of_encode (by decide) rfl (by decide) fun _ => rfl,
    fun a s => exec_eq_set_ofNat (exec_eq (.dec a) s) (toNat_trunc8_pred ..)⟩

end

section
/-! The data movement family: format RI, and a store that completes. -/

namespace Sys2Proof.Machine

open Vocabulary

/-- Instructions encoded as a first byte of format RI, a byte of one register and an immediate byte have that format
(R51). -/
theorem formatRI_of_encode {fb : Nat} {mk : Reg → Byte → Instr} (hfb : fb ∈ soloFirstBytes) (hop : fb % 16 = 0)
    (hmax : fb ≤ 0xC0) (hencode : ∀ a v, encode (mk a v) = [BitVec.ofNat 8 fb, soloByte a, v]) : FormatRI fb mk := by
  simp only [soloByte_eq] at hencode
  refine ⟨hencode, fun s hr => ⟨raises_fetchBounds hr, fun hin => ⟨fun a v hfirst hregister himm => ?_, ?_, ?_⟩⟩⟩
  · have hthird : s.codeByte 2 = v := BitVec.eq_of_toNat_eq himm
    refine step_of_encode (rest := []) hr hin ?_
    rw [hencode, codeByte_of_byteAt hfirst, codeByte_of_byteAt hregister, hthird, List.append_nil]
  · exact fun sel hpos hsel hbyte =>
      raises_illegalEncoding_of_first hr hin hbyte (notMem_legalFirstBytes_of_selector hop hmax hpos hsel)
  · exact soloByteFaults hr hin hfb

/-- A store inside memory writes its second register to its address (R101). -/
theorem exec_store_of_lt {a b : Reg} {s : State} (hin : (s.effectiveAddress a).toNat < s.memSize) :
    exec (.store a b) s =
      .next { s with mem := s.mem.write (s.effectiveAddress a).toNat (s.readReg b), ip := ipAfter s 2 } :=
  exec_eq_done (if_neg (Nat.not_le.mpr hin))

end Sys2Proof.Machine

open Sys2Proof Sys2Proof.Machine Sys2Proof.Vocabulary

/-- Settles O28: the bound decides between the read and the raise. -/
theorem loadReadsAddressedByte : Obligations.LoadReadsAddressedByte :=
  ⟨formatRR_of_encode (by decide) fun _ _ => rfl,
    fun _ _ _ => ⟨exec_load_of_lt, fun hout => exec_eq_raise (if_pos hout)⟩⟩

/-- Settles O29: the memory a store leaves is the one written at its address, and `Memory.write` keeps the canonical
form and every other address. -/
theorem storeWritesAddressedByte : Obligations.StoreWritesAddressedByte := by
  refine ⟨formatRR_of_encode (by decide) fun _ _ => rfl, fun a b s hwf => ⟨fun hin => ?_, fun hout => ?_⟩⟩
  · exact ⟨_, exec_store_of_lt hin, Memory.write_wf hwf _ _, Memory.read_write_same hwf _ _,
      fun _ hother => Memory.read_write_other s.mem _ hother⟩
  · exact exec_eq_raise (if_pos hout)

/-- Settles O30: `mov` writes its first register and advances by two. -/
theorem movCopiesSecondToFirst : Obligations.MovCopiesSecondToFirst :=
  ⟨formatRR_of_encode (by decide) fun _ _ => rfl, fun a b s => exec_eq (.mov a b) s⟩

/-- Settles O31: `put` writes its register and advances by three. -/
theorem putWritesImmediate : Obligations.PutWritesImmediate :=
  ⟨formatRI_of_encode (by decide) rfl (by decide) fun _ _ => rfl, fun a v s => exec_eq (.put a v) s⟩

end

section
/-! The compare and jump family: formats JR and JI, the conditions of the jumps, and what a jump does under them. -/

namespace Sys2Proof.Machine

open Vocabulary

/-! ### The format of a jump -/

/-- Instructions encoded as a first byte and a byte of one register, and as the next first byte and an immediate byte,
are the two forms of a jump (R51, R56). The immediate byte has no illegal value. -/
theorem formatJump_of_encode {fb : Nat} {mkR : Reg → Instr} {mkI : Byte → Instr} (hfb : fb ∈ soloFirstBytes)
    (hencodeR : ∀ a, encode (mkR a) = [BitVec.ofNat 8 fb, soloByte a])
    (hencodeI : ∀ v, encode (mkI v) = [BitVec.ofNat 8 (fb + 1), v]) : FormatJump fb mkR mkI := by
  simp only [soloByte_eq] at hencodeR
  refine ⟨hencodeR, hencodeI, fun s hr => ⟨raises_fetchBounds hr, fun hin => ⟨?_, fun v hfirst himm => ?_, ?_⟩⟩⟩
  · exact fun a => step_of_encode_two hr hin (hencodeR a)
  · have hencode : encode (mkI v) = [BitVec.ofNat 8 (fb + 1), BitVec.ofNat 8 v.toNat] := by
      rw [hencodeI, BitVec.ofNat_toNat, BitVec.setWidth_eq]
    exact step_of_encode_two hr hin hencode hfirst himm
  · exact soloByteFaults hr hin hfb

/-- `jmp` has no condition code: above its two forms its opcode has no legal first byte (R112). -/
theorem notMem_legalFirstBytes_of_jmp {b : Nat} (hlow : 0xD2 ≤ b) (hhigh : b ≤ 0xDF) : b ∉ legalFirstBytes := by
  simp only [legalFirstBytes, List.mem_cons, List.not_mem_nil, or_false]
  omega

/-! ### Conditions -/

theorem Condition.taken_ifFlag_iff {want f : Flag} : (Condition.ifFlag want).taken f = true ↔ f = want :=
  beq_iff_eq

theorem Condition.taken_unlessFlag_iff {want f : Flag} : (Condition.unlessFlag want).taken f = true ↔ f ≠ want :=
  bne_iff_ne

theorem flag_ne_less_iff {f : Flag} : f ≠ .less ↔ f = .equal ∨ f = .greater := by cases f <;> decide

theorem flag_ne_equal_iff {f : Flag} : f ≠ .equal ↔ f = .less ∨ f = .greater := by cases f <;> decide

theorem flag_ne_greater_iff {f : Flag} : f ≠ .greater ↔ f = .less ∨ f = .equal := by cases f <;> decide

/-! ### The effect of a jump -/

theorem jump_of_taken {c : Condition} {s : State} (h : c.taken s.flag = true) (t : Target) :
    jump c t s = .next { s with ip := s.target t } := by
  rw [jump_eq, if_pos h]

theorem jump_of_not_taken {c : Condition} {s : State} (h : ¬ c.taken s.flag = true) (t : Target) :
    jump c t s = .next (s.advance 2) := by
  rw [jump_eq, if_neg h]

/-- Two meanings that are `jump` under one condition, to a register's value and to an immediate, have the effect of a
jump taken under the flags that meet the condition (R111). -/
theorem jumpEffect_of_exec_eq_jump {taken : Flag → Prop} {mkR : Reg → Instr} {mkI : Byte → Instr} (c : Condition)
    (hexecR : ∀ a s, exec (mkR a) s = jump c (.inRegister a) s)
    (hexecI : ∀ v s, exec (mkI v) s = jump c (.immediate v) s)
    (htaken : ∀ f, c.taken f = true ↔ taken f) : JumpEffect taken mkR mkI := by
  refine fun s => ⟨fun hyes => ?_, fun hno => ?_⟩
  · have hgoes := jump_of_taken ((htaken s.flag).mpr hyes)
    exact ⟨fun a => (hexecR a s).trans (hgoes _), fun v => (hexecI v s).trans (hgoes _)⟩
  · have hpasses := jump_of_not_taken (mt (htaken s.flag).mp hno)
    exact ⟨fun a => (hexecR a s).trans (hpasses _), fun v => (hexecI v s).trans (hpasses _)⟩

/-! ### The effect of `cmp` -/

/-- `cmp` leaves in the flag whatever the comparison of its registers answers (R110). -/
theorem exec_cmp_of_ord {a b : Reg} {s : State} {f : Flag} (h : ord (s.readReg a) (s.readReg b) = f) :
    exec (.cmp a b) s = .next { s with flag := f, ip := ipAfter s 2 } := by
  subst h
  exact exec_eq (.cmp a b) s

end Sys2Proof.Machine

open Sys2Proof Sys2Proof.Machine Sys2Proof.Vocabulary

/-- Settles O32: the three outcomes of `ord`. -/
theorem cmpOrdersUnsigned : Obligations.CmpOrdersUnsigned := by
  refine ⟨formatRR_of_encode (by decide) fun _ _ => rfl, fun a b s => ⟨fun hlt => ?_, fun heq => ?_, fun hgt => ?_⟩⟩
  · exact exec_cmp_of_ord (ord_eq_less.mpr hlt)
  · exact exec_cmp_of_ord (ord_eq_equal.mpr heq)
  · exact exec_cmp_of_ord (ord_eq_greater.mpr hgt)

/-- Settles O33: `jmp` is `jump` under the condition that always holds. -/
theorem jmpAlwaysJumps : Obligations.JmpAlwaysJumps := by
  refine ⟨formatJump_of_encode (by decide) (fun _ => rfl) (fun _ => rfl), ?_, fun s hr hin hlow hhigh => ?_⟩
  · exact jumpEffect_of_exec_eq_jump .always (fun _ _ => rfl) (fun _ _ => rfl) fun _ => iff_of_true rfl trivial
  · exact raises_illegalEncoding_of_first hr hin rfl (notMem_legalFirstBytes_of_jmp hlow hhigh)

/-- Settles O34: `jl` is `jump` if the flag is less. -/
theorem jlJumpsIfLess : Obligations.JlJumpsIfLess :=
  ⟨formatJump_of_encode (by decide) (fun _ => rfl) (fun _ => rfl),
    jumpEffect_of_exec_eq_jump (.ifFlag .less) (fun _ _ => rfl) (fun _ _ => rfl)
      fun _ => Condition.taken_ifFlag_iff⟩

/-- Settles O35: `je` is `jump` if the flag is equal. -/
theorem jeJumpsIfEqual : Obligations.JeJumpsIfEqual :=
  ⟨formatJump_of_encode (by decide) (fun _ => rfl) (fun _ => rfl),
    jumpEffect_of_exec_eq_jump (.ifFlag .equal) (fun _ _ => rfl) (fun _ _ => rfl)
      fun _ => Condition.taken_ifFlag_iff⟩

/-- Settles O36: `jg` is `jump` if the flag is greater. -/
theorem jgJumpsIfGreater : Obligations.JgJumpsIfGreater :=
  ⟨formatJump_of_encode (by decide) (fun _ => rfl) (fun _ => rfl),
    jumpEffect_of_exec_eq_jump (.ifFlag .greater) (fun _ _ => rfl) (fun _ _ => rfl)
      fun _ => Condition.taken_ifFlag_iff⟩

/-- Settles O37: `jnl` is `jump` unless the flag is less, and the other flags are equal and greater. -/
theorem jnlJumpsUnlessLess : Obligations.JnlJumpsUnlessLess :=
  ⟨formatJump_of_encode (by decide) (fun _ => rfl) (fun _ => rfl),
    jumpEffect_of_exec_eq_jump (.unlessFlag .less) (fun _ _ => rfl) (fun _ _ => rfl)
      fun _ => Condition.taken_unlessFlag_iff.trans flag_ne_less_iff⟩

/-- Settles O38: `jne` is `jump` unless the flag is equal, and the other flags are less and greater. -/
theorem jneJumpsUnlessEqual : Obligations.JneJumpsUnlessEqual :=
  ⟨formatJump_of_encode (by decide) (fun _ => rfl) (fun _ => rfl),
    jumpEffect_of_exec_eq_jump (.unlessFlag .equal) (fun _ _ => rfl) (fun _ _ => rfl)
      fun _ => Condition.taken_unlessFlag_iff.trans flag_ne_equal_iff⟩

/-- Settles O39: `jng` is `jump` unless the flag is greater, and the other flags are less and equal. -/
theorem jngJumpsUnlessGreater : Obligations.JngJumpsUnlessGreater :=
  ⟨formatJump_of_encode (by decide) (fun _ => rfl) (fun _ => rfl),
    jumpEffect_of_exec_eq_jump (.unlessFlag .greater) (fun _ _ => rfl) (fun _ _ => rfl)
      fun _ => Condition.taken_unlessFlag_iff.trans flag_ne_greater_iff⟩

end

section
/-! The exceptions family: the fault that R133's order gives is the one the fetch, the decoder or the meaning raises. -/

namespace Sys2Proof

open Machine Vocabulary

/-! ### What the decoder accepts, by the fields of the bytes -/

/-- The decoder's checks on the first two bytes of an instruction, as numbers (R57, R58). -/
structure DecodeChecks (b0 b1 : Nat) : Prop where
  legal : b0 ∈ legalFirstBytes
  high : b0 ∈ pairFirstBytes ∨ b0 ∈ soloFirstBytes → b1 / 16 < 4
  pairLow : b0 ∈ pairFirstBytes → b1 % 16 < 4
  soloLow : b0 ∈ soloFirstBytes → b1 % 16 = 0

/-- The formats of the 27 first bytes (R51, R57). -/
theorem format_of_legalFirst : ∀ fb ∈ legalFirstBytes,
    (fb = 0x00 ∨ fb = 0x10) ∨ fb ∈ pairFirstBytes ∨ fb ∈ soloFirstBytes ∨ fb ∈ immediateFirstBytes := by decide

theorem exists_decodeRR_eq_ok {b1 : Byte} (mk : Reg → Reg → Instr) (hhi : b1.toNat / 16 < 4)
    (hlo : b1.toNat % 16 < 4) : ∃ i, decodeRR mk b1 = .ok i := by
  rw [← toNat_hiNibble] at hhi
  rw [← toNat_loNibble] at hlo
  obtain ⟨a, ha, -⟩ := regOfNibble_of_lt hhi
  obtain ⟨b, hb, -⟩ := regOfNibble_of_lt hlo
  exact ⟨mk a b, by rw [decodeRR, ha, hb]⟩

theorem exists_decodeR_eq_ok {b1 : Byte} (mk : Reg → Instr) (hhi : b1.toNat / 16 < 4)
    (hlo : b1.toNat % 16 = 0) : ∃ i, decodeR mk b1 = .ok i := by
  rw [← toNat_hiNibble] at hhi
  rw [← toNat_loNibble] at hlo
  obtain ⟨a, ha, -⟩ := regOfNibble_of_lt hhi
  exact ⟨mk a, by rw [decodeR, ha]; exact if_pos (BitVec.eq_of_toNat_eq hlo)⟩

/-- Bytes that pass the checks are an instruction, in each of the formats. -/
theorem exists_decode_of_checks {b0 b1 : Byte} (b2 : Byte) (h : DecodeChecks b0.toNat b1.toNat) :
    ∃ i, decode b0 b1 b2 = .ok i := by
  rcases format_of_legalFirst _ h.legal with hnone | hpair | hsolo | himm
  · rcases hnone with hb0 | hb0 <;>
    · obtain ⟨-, rfl⟩ := BitVec.toNat_eq_nat.mp hb0
      exact ⟨_, rfl⟩
  · obtain ⟨mk, hmk⟩ := decode_of_pairFirst hpair
    exact hmk b1 b2 ▸ exists_decodeRR_eq_ok mk (h.high (.inl hpair)) (h.pairLow hpair)
  · obtain ⟨mk, hmk⟩ := decode_of_soloFirst hsolo
    exact hmk b1 b2 ▸ exists_decodeR_eq_ok (mk b2) (h.high (.inr hsolo)) (h.soloLow hsolo)
  · obtain ⟨mk, hmk⟩ := decode_of_immediateFirst himm
    exact ⟨_, hmk b1 b2⟩

/-- An instruction's register byte names registers, and its unused nibble is 0 (R51). -/
theorem decodeChecks_of_ok {b0 b1 b2 : Byte} {i : Instr} (h : decode b0 b1 b2 = .ok i) :
    DecodeChecks b0.toNat b1.toNat := by
  obtain ⟨-, -, -, -, hillegal, hhigh, hpairLow, hsoloLow, -⟩ := Laws.Coding.legalFirstBytes
  have haccepted (e : DecodeError) : decode b0 b1 b2 ≠ .error e := by rw [h]; exact nofun
  have hhi (hfirst : b0.toNat ∈ pairFirstBytes ∨ b0.toNat ∈ soloFirstBytes) : b1.toNat / 16 < 4 :=
    Nat.not_le.mp fun hle => haccepted _ (hhigh b0 b1 b2 hfirst hle)
  exact {
    legal := Decidable.not_not.mp fun hfirst => haccepted _ (hillegal b0 b1 b2 hfirst)
    high := hhi
    pairLow hpair := Nat.not_le.mp fun hle => haccepted _ (hpairLow b0 b1 b2 hpair (hhi (.inl hpair)) hle)
    soloLow hsolo := Decidable.not_not.mp fun hne => haccepted _ (hsoloLow b0 b1 b2 hsolo (hhi (.inr hsolo)) hne) }

end Sys2Proof

namespace Sys2Proof.Machine

open Vocabulary

/-! ### The registers a register byte names -/

theorem regNumbered_index (s : State) (a : Reg) : regNumbered s a.index = s.readReg a := by cases a <;> rfl

theorem toNat_pairByte_div (a b : Reg) : (pairByte a b).toNat / 16 = a.index := by
  rw [← toNat_hiNibble, pairByte, hiNibble_packNibbles, toNat_field]

theorem toNat_pairByte_mod (a b : Reg) : (pairByte a b).toNat % 16 = b.index := by
  rw [← toNat_loNibble, pairByte, loNibble_packNibbles, toNat_field]

/-! ### The fault R133's order gives -/

section
variable {s : State} (hin : s.ip.toNat < s.memSize)
include hin

/-- Where the decoder rejects, the first failing check is the arm that gives its rejection. -/
theorem expectedFault_of_decode_error {e : DecodeError}
    (h : decode (s.codeByte 0) (s.codeByte 1) (s.codeByte 2) = .error e) :
    expectedFault s = some (Fault.ofDecode e) := by
  obtain ⟨-, -, -, -, hillegal, hhigh, hpairLow, hsoloLow, -⟩ := Laws.Coding.legalFirstBytes
  simp only [expectedFault, if_neg (Nat.not_le.mpr hin), ofNat_byteAt]
  by_cases hlegal : byteAt s 0 ∈ legalFirstBytes
  case neg =>
    cases (hillegal _ _ _ hlegal).symm.trans h
    exact if_pos hlegal
  rw [if_neg (not_not_intro hlegal)]
  by_cases hhi : (byteAt s 0 ∈ pairFirstBytes ∨ byteAt s 0 ∈ soloFirstBytes) ∧ 4 ≤ byteAt s 1 / 16
  case pos =>
    cases (hhigh _ _ _ hhi.1 hhi.2).symm.trans h
    exact if_pos hhi
  rw [if_neg hhi]
  have hregister (hfirst : byteAt s 0 ∈ pairFirstBytes ∨ byteAt s 0 ∈ soloFirstBytes) : byteAt s 1 / 16 < 4 :=
    Nat.not_le.mp fun hle => hhi ⟨hfirst, hle⟩
  by_cases hpair : byteAt s 0 ∈ pairFirstBytes ∧ 4 ≤ byteAt s 1 % 16
  case pos =>
    cases (hpairLow _ _ _ hpair.1 (hregister (.inl hpair.1)) hpair.2).symm.trans h
    exact if_pos hpair
  rw [if_neg hpair]
  by_cases hsolo : byteAt s 0 ∈ soloFirstBytes ∧ byteAt s 1 % 16 ≠ 0
  case pos =>
    cases (hsoloLow _ _ _ hsolo.1 (hregister (.inr hsolo.1)) hsolo.2).symm.trans h
    exact if_pos hsolo
  -- Past those arms every check passes, which the rejection excludes.
  have hchecks : DecodeChecks (byteAt s 0) (byteAt s 1) := {
    legal := hlegal
    high := hregister
    pairLow hfirst := Nat.not_le.mp fun hle => hpair ⟨hfirst, hle⟩
    soloLow hfirst := Decidable.not_not.mp fun hne => hsolo ⟨hfirst, hne⟩ }
  obtain ⟨i, hi⟩ := exists_decode_of_checks (s.codeByte 2) hchecks
  cases hi.symm.trans h

/-- Where the decoder accepts, its checks pass, and the arms left are the instruction's own fault. -/
theorem expectedFault_of_decode_ok {i : Instr}
    (h : decode (s.codeByte 0) (s.codeByte 1) (s.codeByte 2) = .ok i) : expectedFault s = execFault i s := by
  have hchecks : DecodeChecks (byteAt s 0) (byteAt s 1) := decodeChecks_of_ok h
  have hfirst : byteAt s 0 = firstByte i := congrArg BitVec.toNat (getD_encode_of_decode h).symm
  have hbytes := take_length_of_decode h
  simp only [expectedFault]
  rw [if_neg (Nat.not_le.mpr hin), if_neg (not_not_intro hchecks.legal),
    if_neg fun hhi => Nat.not_le.mpr (hchecks.high hhi.1) hhi.2,
    if_neg fun hlo => Nat.not_le.mpr (hchecks.pairLow hlo.1) hlo.2,
    if_neg fun hlo => hlo.2 (hchecks.soloLow hlo.1), hfirst]
  cases i with
  | div a b | load a b | store a b =>
    obtain ⟨-, hb1⟩ : s.codeByte 0 = _ ∧ s.codeByte 1 = pairByte a b := by
      simpa [Instr.length, encode] using hbytes
    have hhi : byteAt s 1 / 16 = a.index := (congrArg (·.toNat / 16) hb1).trans (toNat_pairByte_div a b)
    have hlo : byteAt s 1 % 16 = b.index := (congrArg (·.toNat % 16) hb1).trans (toNat_pairByte_mod a b)
    simp [hhi, hlo, regNumbered_index, firstByte, encode, execFault, ← BitVec.toNat_inj]
  | _ => simp [firstByte, encode, execFault]

end

theorem expectedFault_of_fetchDecode_error {s : State} {f : Fault} (h : s.fetchDecode = .error f) :
    expectedFault s = some f := by
  rcases State.fetchDecode_error_inv h with ⟨hout, rfl⟩ | ⟨hin, e, hdecode, rfl⟩
  · exact if_pos hout
  · exact expectedFault_of_decode_error hin hdecode

theorem expectedFault_of_fetchDecode_ok {s : State} {i : Instr} (h : s.fetchDecode = .ok i) :
    expectedFault s = execFault i s := by
  obtain ⟨hin, hdecode⟩ := State.fetchDecode_ok_inv h
  exact expectedFault_of_decode_ok hin hdecode

/-- An instruction that completes leaves `run` as it was, or halts (R15). -/
theorem execDone_run (i : Instr) (s : State) : (execDone i s).run = s.run ∨ (execDone i s).run = .halted := by
  cases i with
  | halt => exact .inr rfl
  | _ => exact .inl rfl

end Sys2Proof.Machine

open Sys2Proof Sys2Proof.Machine Sys2Proof.Vocabulary

/-- Settles O8: of the outcomes of `step_run_cases` only the raise leaves a fault. -/
theorem faultLeavesStateUnchanged : Obligations.FaultLeavesStateUnchanged := by
  intro s t cause origin hr h hf
  rcases step_run_cases hr h with hrun | ⟨-, hhalt⟩ | ⟨f, rfl, -⟩
  · cases hrun.symm.trans hf
  · cases hhalt.symm.trans hf
  · cases hf
    exact ⟨rfl, rfl, rfl⟩

/-- Settles O9: `expectedFault` is the fault of the fetch or the decoder where they fail, and else that of the decoded
instruction, which completes if it has none. -/
theorem faultCausesAndPriority : Obligations.FaultCausesAndPriority := by
  refine ⟨fun s hr => ?_, fun v => ⟨rfl, rfl, rfl, rfl, rfl, rfl⟩, fun n => ⟨rfl, rfl⟩, rfl, rfl⟩
  cases hfetch : s.fetchDecode with
  | error f =>
    rw [expectedFault_of_fetchDecode_error hfetch]
    refine ⟨fun g hg => ?_, nofun⟩
    cases hg
    exact step_of_error hr hfetch
  | ok i =>
    rw [expectedFault_of_fetchDecode_ok hfetch]
    have hstep := step_of_ok hr hfetch
    exact ⟨fun f hf => hstep.trans (exec_eq_raise hf),
      fun hnone => ⟨i, _, rfl, hstep, exec_eq_done hnone, hr ▸ execDone_run i s⟩⟩

end

section
/-! The reset and hazards family: what the host's load and step requests do, and the invariant of a session. -/

namespace Sys2Proof.Machine

open Vocabulary

/-! ### Load and step requests -/

/-- A load is accepted in the phase fresh, if the program fits (R151). -/
theorem Session.mayLoad_iff {h : Session} {p : List Byte} :
    h.mayLoad p = true ↔ h.phase = .fresh ∧ p.length ≤ h.engine.memSize := by
  simp [Session.mayLoad]

theorem Session.act_load_accepted {h : Session} {p : List Byte} (hfresh : h.phase = .fresh)
    (hfits : p.length ≤ h.engine.memSize) :
    h.act (.load p) = ({ phase := .loaded, engine := h.engine.loadProgram p }, .done) :=
  if_pos (Session.mayLoad_iff.mpr ⟨hfresh, hfits⟩)

theorem Session.act_load_refused {h : Session} {p : List Byte}
    (hno : ¬ (h.phase = .fresh ∧ p.length ≤ h.engine.memSize)) : h.act (.load p) = (h, .loadRefused) :=
  if_neg (mt Session.mayLoad_iff.mp hno)

theorem State.report_of_running {s : State} (h : s.run = .running) : s.report = .continued := by
  rw [State.report, h]

theorem State.report_of_halted {s : State} (h : s.run = .halted) : s.report = .halted := by
  rw [State.report, h]

theorem State.report_of_faulted {s : State} {cause : Fault} {origin : Byte} (h : s.run = .faulted cause origin) :
    s.report = .failed cause origin := by
  rw [State.report, h]

/-! ### The invariant of a session -/

/-- A program that fits keeps the invariant of a running engine: its cells lie below `MEM_SIZE`, and there is no
recorded fault that the new memory could falsify. -/
theorem inv_loadProgram {s : State} (hinv : Inv s) (hr : s.run = .running) {p : List Byte}
    (hfits : p.length ≤ s.memSize) : Inv (s.loadProgram p) := by
  have hend : 0 + p.length ≤ s.memSize := by rwa [Nat.zero_add]
  exact inv_of_not_faulted (Memory.writeList_wf hinv.canonical 0 p) (Memory.writeList_below hinv.inMemory 0 p hend)
    (.inl hr)

theorem sessionInv_start (c : Config) : SessionInv (Session.start c) :=
  ⟨invHoldsAtReset.1 c, fun _ => State.resetWith_run c⟩

/-- Every action of the host keeps the session's invariant. A load happens only in the phase fresh, where the engine is
Running. -/
theorem sessionInv_act {h : Session} (a : HostAction) (hinv : SessionInv h) : SessionInv (h.act a).1 := by
  rcases h.act_cases a with ⟨c, hact⟩ | ⟨p, hfits, hfresh, hact⟩ | hact | hact
  · exact hact ▸ sessionInv_start c
  · exact hact ▸ ⟨inv_loadProgram hinv.engine (hinv.fresh hfresh) hfits, nofun⟩
  · rwa [hact]
  · exact hact ▸ ⟨stepKeepsInv _ _ hinv.engine h.engine.step_eq_afterStep, nofun⟩

theorem sessionInv_acts {h : Session} (as : List HostAction) (hinv : SessionInv h) : SessionInv (h.acts as) := by
  induction as generalizing h with
  | nil => exact hinv
  | cons a as ih => exact ih (sessionInv_act a hinv)

end Sys2Proof.Machine

open Sys2Proof Sys2Proof.Machine Sys2Proof.Vocabulary

/-- Settles O51: a reset brings the invariant and every action keeps it. -/
theorem hostActionsKeepInv : Obligations.HostActionsKeepInv :=
  ⟨fun _ a hinv => sessionInv_act a hinv, fun c as => sessionInv_acts as (sessionInv_start c)⟩

/-- Settles O49: an accepted load writes the program over the empty memory of a reset, and each of the two other cases
denies one of the conditions on which a load is accepted. -/
theorem loadPlacesProgramAtZero : Obligations.LoadPlacesProgramAtZero := by
  refine ⟨fun c p hfits => ⟨((State.resetWith c).loadProgram p).mem, ?_, fun a => ?_⟩, fun h p hlong => ?_,
    fun h p hphase => ?_, fun h => rfl⟩
  · exact Session.act_load_accepted rfl hfits
  · exact State.loadProgram_read Memory.empty_wf p a
  · exact Session.act_load_refused fun hload => Nat.not_le.mpr hlong hload.2
  · exact Session.act_load_refused fun hload => hphase hload.1

/-- Settles O50: the reply is the report of the state after the step, which an engine that is over does not change. -/
theorem stepReplyFollowsRunState : Obligations.StepReplyFollowsRunState := by
  refine ⟨fun h => ⟨h.engine.afterStep, h.engine.step_eq_afterStep, rfl, ?_, ?_, ?_⟩, fun h hover => ?_⟩
  · exact State.report_of_running
  · exact State.report_of_halted
  · exact fun _ _ => State.report_of_faulted
  · have hsame := State.afterStep_of_over hover
    exact ⟨hsame, congrArg State.report hsame⟩

end
